-- ==== Sys2Proof/Word.lean ====
section
/-! DEFINITION. The word types of the iffi CORE, at any width N (00_scope R7, log 1). -/

namespace Sys2Proof

/-- A register value, memory-cell value, immediate or program counter: N bits (00_scope R9). -/
abbrev Word (N : Nat) := BitVec N

/-- An instruction word: W = N + 16 bits (30_encoding R80). -/
abbrev InstrWord (N : Nat) := BitVec (N + 16)

/-- The index of a general register, `R0` to `R7` (10_state R22): no other index exists (R24). -/
abbrev Reg := Fin 8

end Sys2Proof
end

