-- ==== Sys2Proof/Config.lean ====
section
/-! DEFINITION. The implementation parameters of 00_scope R7, and the free values: everything the spec calls a
draw or an OPEN parameter is an opaque constant without a body, so no proof can know its value. N is no constant:
every definition takes it, and a State carries it (log 1). -/

namespace Sys2Proof

/-- The default of the parameter `N` (00_scope R7). -/
abbrev Config.defaultWidth : Nat := 16

/-- The least `N` (00_scope R7, R8). -/
abbrev Config.minWidth : Nat := 12

/-- `MEM_SIZE`: the number of data-memory cells (00_scope R7). -/
abbrev Config.memSize : Nat := 1024

/-- The largest program length `L`, 2^N - 1 (00_scope R7, decision D3). -/
abbrev Config.maxProgramLength (N : Nat) : Nat := 2 ^ N - 1

/-- The OPEN tick width `TW`, less one: TW is any width of at least 1 (decision D17, log 2). -/
opaque Config.tickWidthPred : Nat

/-- `TW`, the width of a cell's `lastAccessTick` (00_scope R7). -/
abbrev Config.tickWidth : Nat := Config.tickWidthPred + 1

/-- A timestamp: TW bits, read by no rule (20_memory R52). -/
abbrev Tick := BitVec Config.tickWidth

/-- `TEMP_MIN` (00_scope R7). -/
def Config.tempMin : Rat := 35

/-- `TEMP_MAX` (00_scope R7). -/
def Config.tempMax : Rat := 90

/-- Behind `TEMP_INIT`: any rational (log 4). -/
opaque Config.tempInitRaw : Rat

/-- The OPEN parameter `TEMP_INIT`: any value in [35, 90] (00_scope R7, decision D14, log 4). -/
def Config.tempInit : Rat :=
  if Config.tempInitRaw < Config.tempMin then Config.tempMin
  else if Config.tempMax < Config.tempInitRaw then Config.tempMax
  else Config.tempInitRaw

/-- Behind `TEMP_DELTA_MAX`: any rational (log 4). -/
opaque Config.tempDeltaMaxRaw : Rat

/-- The OPEN parameter `TEMP_DELTA_MAX`: any value above 0 (00_scope R7, decision D14, log 4). -/
def Config.tempDeltaMax : Rat :=
  if 0 < Config.tempDeltaMaxRaw then Config.tempDeltaMaxRaw else 1

/-- Behind the draw `delta`: any rational for each index (log 5). -/
opaque Config.deltaRaw : Nat → Rat

/-- The draw `delta` of the step with draw index `n`: any value in [0, TEMP_DELTA_MAX] (40_cycle R120, R131). -/
def Config.delta (n : Nat) : Rat :=
  if Config.deltaRaw n < 0 then 0
  else if Config.tempDeltaMax < Config.deltaRaw n then Config.tempDeltaMax
  else Config.deltaRaw n

/-- The draw `now` of the step with draw index `n`: any tick, under no law (20_memory R52, log 5). -/
opaque Config.now : Nat → Tick

/-- The payload of an optional TRACE event (40_cycle R128). -/
structure TracePayload (N : Nat) where
  a : Word N
  b : Word N
  c : Word N
  deriving DecidableEq, Repr, Inhabited

/-- The draw `tr` of the step with draw index `n`: no TRACE event, or one with any payload
(40_cycle R120, R128, log 5). -/
opaque Config.tr (N : Nat) : Nat → Option (TracePayload N)

/-- The power-on value of a data-memory cell: a draw (20_memory R62, log 6). -/
opaque Config.powerOnValue (N : Nat) : Nat → Word N

/-- The power-on `lastAccessTick` of a data-memory cell: a draw (20_memory R62, log 6). -/
opaque Config.powerOnTick : Nat → Tick

/-- The text of a TRACE line, from the event's `op`, `a`, `b`, `c`: the host's own (40_cycle R127, log 16). -/
opaque Config.traceText (N : Nat) : BitVec 4 → Word N → Word N → Word N → String

/-- What the host writes before the word SegFault in a SEGFAULT line (43_memory_ops R190, log 16). -/
opaque Config.segFaultBefore (N : Nat) : Word N → String

/-- What the host writes after the word SegFault in a SEGFAULT line (43_memory_ops R190, log 16). -/
opaque Config.segFaultAfter (N : Nat) : Word N → String

/-- The text of the halt notice (44_system R202, log 16). -/
opaque Config.haltText : String

/-- The diagnostic message the host renders from a nonzero `lastError` code (10_state R34, log 16). -/
opaque Config.diagnosticText : BitVec 2 → String

end Sys2Proof
end

