-- ==== Sys2Proof/Syntax.lean ====
section
/-! DEFINITION. The instructions: one constructor for each of the 13 rows of spec/opcode_table.json
(30_encoding R87). A register operand is an index 0 to 7; an immediate, jump target or absolute address is
a whole B field (R83, R84, R85), held as the number it reads as unsigned, so that one type serves every width N
(00_scope R7); WellFormed checks that it is below 2^N. -/

namespace Sys2Proof

/-- The decoded instructions of 30_encoding R87. -/
inductive Instr where
  /-- `MOV Rd, #v` (41_alu R162). -/
  | mov (d : Reg) (v : Nat)
  /-- `ADD Rd, Rs` (41_alu R163, M = 0). -/
  | addReg (d s : Reg)
  /-- `ADD Rd, #v` (41_alu R163, M = 1). -/
  | addImm (d : Reg) (v : Nat)
  /-- `SUB Rd, Rs` (41_alu R164). -/
  | sub (d s : Reg)
  /-- `CMP Ra, Rs` (41_alu R165, M = 0). -/
  | cmpReg (a s : Reg)
  /-- `CMP Ra, #v` (41_alu R165, M = 1). -/
  | cmpImm (a : Reg) (v : Nat)
  /-- `JMP t` (42_branch R180). -/
  | jmp (t : Nat)
  /-- `JZ t` (42_branch R181). -/
  | jz (t : Nat)
  /-- `LOAD Rd, Rs` (43_memory_ops R190). -/
  | load (d s : Reg)
  /-- `STORE Rs, Rt`, the address in Rt (43_memory_ops R191, M = 0). -/
  | storeReg (s t : Reg)
  /-- `STORE Rs, #addr` (43_memory_ops R191, M = 1). -/
  | storeAbs (s : Reg) (addr : Nat)
  /-- `HALT` (44_system R202). -/
  | halt
  /-- `PRINT Rr` (44_system R200). -/
  | print (r : Reg)
  deriving DecidableEq, Repr

end Sys2Proof
end

