-- ==== Sys2Proof/Decode.lean ====
section
/-! DEFINITION. The encoding of 30_encoding.md: the fields of a word (R81), the opcode map (R86), the legal
field values (R87), the decoder (R89), the encoder, the match and mask table (R103), all at any width N, and the
byte order of tools (20_memory R58). -/

namespace Sys2Proof

/-! ### The fields of a word, for general N (30_encoding R81) -/

/-- `OP`, `w[N+15:N+12]`. -/
def opField {N : Nat} (w : InstrWord N) : BitVec 4 := w.extractLsb' (N + 12) 4

/-- `M`, `w[N+11]`. -/
def mField {N : Nat} (w : InstrWord N) : Bool := w.getLsbD (N + 11)

/-- `A`, `w[N+10:N+8]`. -/
def aField {N : Nat} (w : InstrWord N) : BitVec 3 := w.extractLsb' (N + 8) 3

/-- `RSV`, `w[N+7:N]`. -/
def rsvField {N : Nat} (w : InstrWord N) : BitVec 8 := w.extractLsb' N 8

/-- `B`, `w[N-1:0]`. -/
def bField {N : Nat} (w : InstrWord N) : Word N := w.extractLsb' 0 N

/-- The word with the given fields (30_encoding R81): OP, M, A, RSV and B from the most significant bit down. -/
def wordOfParts {N : Nat} (op : BitVec 4) (m : Bool) (a : BitVec 3) (rsv : BitVec 8) (b : Word N) : InstrWord N :=
  BitVec.cast (Nat.add_comm 16 N) ((op ++ BitVec.ofBool m ++ a ++ rsv : BitVec 16) ++ b)

/-- `B[N-1:3]`, which must be 0 where B is a register index (30_encoding R83). -/
def bHigh {N : Nat} (b : Word N) : BitVec (N - 3) := b.extractLsb' 3 (N - 3)

/-- `B[2:0]`, the register index in B (30_encoding R83). -/
def bLow {N : Nat} (b : Word N) : BitVec 3 := b.extractLsb' 0 3

/-- The register a 3-bit field names (10_state R24). -/
def regOfField (f : BitVec 3) : Reg := f.toFin

/-- The 3-bit field that names a register. -/
def fieldOfReg (r : Reg) : BitVec 3 := BitVec.ofFin r

/-- `zext_N` of a register index, as an event payload or a B field carries it (00_scope R10). -/
def regAsWord (N : Nat) (r : Reg) : Word N := (fieldOfReg r).setWidth N

/-! ### The opcode map (30_encoding R86) -/

/-- The closed OpCode set (00_scope R2). -/
inductive OpCode where
  | mov | add | sub | cmp | jmp | jz | load | store | halt | print
  deriving DecidableEq, Repr

/-- The number of an opcode (30_encoding R86). -/
def OpCode.number : OpCode → BitVec 4
  | .mov => 0
  | .add => 1
  | .sub => 2
  | .cmp => 3
  | .jmp => 4
  | .jz => 5
  | .load => 6
  | .store => 7
  | .halt => 8
  | .print => 9

/-- The opcode an OP field names; the values 10 to 15 name none (30_encoding R86, R90). -/
def opCodeOf (op : BitVec 4) : Option OpCode :=
  match op.toNat with
  | 0 => some .mov
  | 1 => some .add
  | 2 => some .sub
  | 3 => some .cmp
  | 4 => some .jmp
  | 5 => some .jz
  | 6 => some .load
  | 7 => some .store
  | 8 => some .halt
  | 9 => some .print
  | _ => none

/-! ### The legal field values (30_encoding R87) -/

/-- How an instruction uses a field (the columns A and B of 30_encoding R87). -/
inductive FieldUse where
  | unused | register | immediate | target | address
  deriving DecidableEq, Repr

/-- The column "allowed M" of 30_encoding R87. -/
def allowedM : OpCode → Bool → Bool
  | .mov, m => m
  | .add, _ => true
  | .sub, m => !m
  | .cmp, _ => true
  | .jmp, m => m
  | .jz, m => m
  | .load, m => !m
  | .store, _ => true
  | .halt, m => !m
  | .print, m => !m

/-- The column "A" of 30_encoding R87. -/
def aUse : OpCode → FieldUse
  | .jmp => .unused
  | .jz => .unused
  | .halt => .unused
  | .mov => .register
  | .add => .register
  | .sub => .register
  | .cmp => .register
  | .load => .register
  | .store => .register
  | .print => .register

/-- The columns "B when M = 0" and "B when M = 1" of 30_encoding R87; a mode the opcode does not allow is
refused before its use is asked for (R89). -/
def bUse : OpCode → Bool → FieldUse
  | .mov, _ => .immediate
  | .add, false => .register
  | .add, true => .immediate
  | .sub, _ => .register
  | .cmp, false => .register
  | .cmp, true => .immediate
  | .jmp, _ => .target
  | .jz, _ => .target
  | .load, _ => .register
  | .store, false => .register
  | .store, true => .address
  | .halt, _ => .unused
  | .print, _ => .unused

/-! ### The decoder (30_encoding R89) -/

/-- Why a word spells no instruction (30_encoding R88); the numeric codes are 10_state R32's. -/
inductive Malformed where
  /-- `OP` is 10 to 15 (30_encoding R90). -/
  | illegalOpcode
  /-- `M` is not allowed for `OP` (30_encoding R93). -/
  | illegalMode
  /-- A field that must be zero is not (30_encoding R91, R92). -/
  | reservedNonzero
  deriving DecidableEq, Repr

/-- The code of a malformation (10_state R32, 60_exceptions R211). -/
def Malformed.code : Malformed → BitVec 2
  | .illegalOpcode => 1
  | .illegalMode => 2
  | .reservedNonzero => 3

/-- The instruction of legal fields (30_encoding R87). -/
def instrOfFields {N : Nat} (op : OpCode) (m : Bool) (a : Reg) (b : Word N) : Instr :=
  match op, m with
  | .mov, _ => .mov a b.toNat
  | .add, false => .addReg a (regOfField (bLow b))
  | .add, true => .addImm a b.toNat
  | .sub, _ => .sub a (regOfField (bLow b))
  | .cmp, false => .cmpReg a (regOfField (bLow b))
  | .cmp, true => .cmpImm a b.toNat
  | .jmp, _ => .jmp b.toNat
  | .jz, _ => .jz b.toNat
  | .load, _ => .load a (regOfField (bLow b))
  | .store, false => .storeReg a (regOfField (bLow b))
  | .store, true => .storeAbs a b.toNat
  | .halt, _ => .halt
  | .print, _ => .print a

/-- The decoder: total on every word, its checks in the order of 30_encoding R89. -/
def decode {N : Nat} (w : InstrWord N) : Except Malformed Instr :=
  match opCodeOf (opField w) with
  | none => .error .illegalOpcode
  | some op =>
    if allowedM op (mField w) = false then .error .illegalMode
    else if rsvField w ≠ 0 then .error .reservedNonzero
    else if aUse op = .unused ∧ aField w ≠ 0 then .error .reservedNonzero
    else if bUse op (mField w) = .register ∧ bHigh (bField w) ≠ 0 then .error .reservedNonzero
    else if bUse op (mField w) = .unused ∧ bField w ≠ 0 then .error .reservedNonzero
    else .ok (instrOfFields op (mField w) (regOfField (aField w)) (bField w))

/-! ### The encoder -/

/-- The word with the given fields and RSV 0 (30_encoding R81, R91). -/
def wordOfFields {N : Nat} (op : OpCode) (m : Bool) (a : BitVec 3) (b : Word N) : InstrWord N :=
  wordOfParts op.number m a 0 b

/-- The word of an instruction (30_encoding R87, R97); of an immediate, target or address that is not below 2^N,
and so not well formed, its low N bits. -/
def encode (N : Nat) : Instr → InstrWord N
  | .mov d v => wordOfFields .mov true (fieldOfReg d) (BitVec.ofNat N v)
  | .addReg d s => wordOfFields .add false (fieldOfReg d) (regAsWord N s)
  | .addImm d v => wordOfFields .add true (fieldOfReg d) (BitVec.ofNat N v)
  | .sub d s => wordOfFields .sub false (fieldOfReg d) (regAsWord N s)
  | .cmpReg a s => wordOfFields .cmp false (fieldOfReg a) (regAsWord N s)
  | .cmpImm a v => wordOfFields .cmp true (fieldOfReg a) (BitVec.ofNat N v)
  | .jmp t => wordOfFields .jmp true 0 (BitVec.ofNat N t)
  | .jz t => wordOfFields .jz true 0 (BitVec.ofNat N t)
  | .load d s => wordOfFields .load false (fieldOfReg d) (regAsWord N s)
  | .storeReg s t => wordOfFields .store false (fieldOfReg s) (regAsWord N t)
  | .storeAbs s addr => wordOfFields .store true (fieldOfReg s) (BitVec.ofNat N addr)
  | .halt => wordOfFields .halt false 0 0
  | .print r => wordOfFields .print false (fieldOfReg r) 0

/-- The opcode of an instruction (30_encoding R87). -/
def opCodeOfInstr : Instr → OpCode
  | .mov _ _ => .mov
  | .addReg _ _ => .add
  | .addImm _ _ => .add
  | .sub _ _ => .sub
  | .cmpReg _ _ => .cmp
  | .cmpImm _ _ => .cmp
  | .jmp _ => .jmp
  | .jz _ => .jz
  | .load _ _ => .load
  | .storeReg _ _ => .store
  | .storeAbs _ _ => .store
  | .halt => .halt
  | .print _ => .print

/-- The mode bit of an instruction's word (30_encoding R87). -/
def modeOfInstr : Instr → Bool
  | .mov _ _ => true
  | .addReg _ _ => false
  | .addImm _ _ => true
  | .sub _ _ => false
  | .cmpReg _ _ => false
  | .cmpImm _ _ => true
  | .jmp _ => true
  | .jz _ => true
  | .load _ _ => false
  | .storeReg _ _ => false
  | .storeAbs _ _ => true
  | .halt => false
  | .print _ => false

/-! ### Match and mask, for general N (30_encoding R103, spec/opcode_table.json) -/

/-- The mnemonic of an opcode (30_encoding R86). -/
def OpCode.mnemonic : OpCode → String
  | .mov => "MOV"
  | .add => "ADD"
  | .sub => "SUB"
  | .cmp => "CMP"
  | .jmp => "JMP"
  | .jz => "JZ"
  | .load => "LOAD"
  | .store => "STORE"
  | .halt => "HALT"
  | .print => "PRINT"

/-- A row of the opcode table: a word is of the row when `(w &&& mask) = pattern`. -/
structure TableRow (N : Nat) where
  mnemonic : String
  pattern : InstrWord N
  mask : InstrWord N
  deriving DecidableEq, Repr

/-- Whether a word is of a row (30_encoding R103). -/
def TableRow.covers {N : Nat} (r : TableRow N) (w : InstrWord N) : Bool := (w &&& r.mask) == r.pattern

/-- The bits of A that a row fixes: all of an unused A, none of a register (30_encoding R87, R92). -/
def aMask : FieldUse → BitVec 3
  | .unused => 7
  | .register => 0
  | .immediate => 0
  | .target => 0
  | .address => 0

/-- The bits of B that a row fixes: all of an unused B, `B[N-1:3]` of a register, none otherwise (30_encoding R87,
R92). -/
def bMask (N : Nat) : FieldUse → Word N
  | .unused => BitVec.allOnes N
  | .register => BitVec.allOnes N <<< 3
  | .immediate => 0
  | .target => 0
  | .address => 0

/-- The row of an opcode and a mode, its fields placed by 30_encoding R81: OP, M and RSV fixed, and what must be 0 of
A and B. -/
def rowOf (N : Nat) (op : OpCode) (m : Bool) : TableRow N :=
  ⟨op.mnemonic, wordOfFields op m 0 0, wordOfParts 15 true (aMask (aUse op)) 255 (bMask N (bUse op m))⟩

/-- The row of an instruction (30_encoding R103). -/
def tableRow (N : Nat) (i : Instr) : TableRow N := rowOf N (opCodeOfInstr i) (modeOfInstr i)

/-- The opcode table, in its order (30_encoding R103). -/
def opcodeTable (N : Nat) : List (TableRow N) :=
  [rowOf N .mov true, rowOf N .add false, rowOf N .add true, rowOf N .sub false, rowOf N .cmp false,
    rowOf N .cmp true, rowOf N .jmp true] ++
  [rowOf N .jz true, rowOf N .load false, rowOf N .store false, rowOf N .store true, rowOf N .halt false,
    rowOf N .print false]

/-! ### Words as bytes, for tools only (20_memory R58) -/

/-- The bytes of an instruction word, bits W-1..W-8 first (20_memory R58). A width W that is no multiple of 8 has no
whole bytes, and the spec says nothing of it: there is no byte form then (log 18). -/
def bytesOfWord {N : Nat} (w : InstrWord N) : Option (List (BitVec 8)) :=
  if (N + 16) % 8 = 0 then
    some ((List.range ((N + 16) / 8)).map (fun k => w.extractLsb' (N + 16 - 8 * (k + 1)) 8))
  else none

/-- The number that big-endian bytes spell after the number `acc`. -/
def bytesValue (acc : Nat) : List (BitVec 8) → Nat
  | [] => acc
  | b :: rest => bytesValue (acc * 256 + b.toNat) rest

/-- The instruction word that W/8 big-endian bytes spell (20_memory R58). -/
def wordOfBytes (N : Nat) (bs : List (BitVec 8)) : Option (InstrWord N) :=
  if bs.length * 8 = N + 16 then some (BitVec.ofNat (N + 16) (bytesValue 0 bs)) else none

/-! ### The host's question -/

/-- The instruction the decoder reads from the word `w` as spec/opcode_table.json numbers its bits, at its N = 16: a
row has one word of 32 bits, and bits at or above `nbits` are 0. -/
def decodeTableWord (nbits w : Nat) : Option Instr :=
  match decode (N := 16) (BitVec.ofNat 32 (w % 2 ^ nbits)) with
  | .ok i => some i
  | .error _ => none

end Sys2Proof
end

