-- ==== Sys2Proof/Machine/State.lean ====
section
/-! DEFINITION. The state of the core (10_state R20), its data memory (20_memory R50), the loaded program
(20_memory R60) and the trace port (40_cycle R127), as plain data; the two reason types; the state after
reset. -/

namespace Sys2Proof.Machine

/-- The lifecycle status (10_state R33). -/
inductive Status where
  | idle | running | halted | error
  deriving DecidableEq, Repr

/-- What an event reports (40_cycle R127). -/
inductive EventKind where
  | trace | output | segFault | halt
  deriving DecidableEq, Repr

/-- An event on the trace port (40_cycle R127). -/
structure Event (N : Nat) where
  kind : EventKind
  op : BitVec 4
  a : Word N
  b : Word N
  c : Word N
  deriving DecidableEq, Repr

/-- A data-memory cell: its value and its `lastAccessTick` (20_memory R50). -/
structure Cell (N : Nat) where
  value : Word N
  tick : Tick
  deriving DecidableEq, Repr

/-- The data memory: the cells written since power-on, by rising index. A cell that is not listed holds its
power-on contents, which no listed entry stands for (20_memory R62, log 6). -/
structure Memory (N : Nat) where
  cells : List (Nat × Cell N)
  deriving DecidableEq, Repr

/-- All that changes as a core of width N runs: ProcessorState (10_state R20), data memory, the loaded program, and the
trace port's events. -/
structure CoreState (N : Nat) where
  /-- `x[0]`..`x[7]` (10_state R22). -/
  regs : Vector (Word N) 8
  /-- The program counter, an index into the program (10_state R27). -/
  pc : Word N
  /-- `IR`, the last fetched word (10_state R36). -/
  ir : InstrWord N
  /-- `IR_valid` (10_state R36). -/
  irValid : Bool
  /-- `Z`, the zero flag (10_state R30). -/
  z : Bool
  /-- `cycleCount` (10_state R35). -/
  cycleCount : BitVec 32
  /-- `temperature`, a value in [35, 90] (10_state R37, log 3). -/
  temperature : Rat
  /-- `status` (10_state R33). -/
  status : Status
  /-- `lastError`; none is the code 0 (10_state R34). -/
  lastError : Option Malformed
  /-- The 1024 data-memory cells (20_memory R50). -/
  mem : Memory N
  /-- The instruction memory, `IMem(0)` to `IMem(L - 1)`; L is its length (20_memory R60). -/
  program : List (InstrWord N)
  /-- Every event put on the trace port since power-on, oldest first (40_cycle R127, log 7). -/
  log : List (Event N)
  /-- The index of the current step's draws: the model's own counter, not the spec's (log 5). -/
  draws : Nat
  deriving DecidableEq, Repr

/-- The machine. Its width is the implementation parameter N (00_scope R7): every claim about a State is a claim for
every N, and no transition changes it (log 1). -/
structure State where
  /-- The parameter `N` (00_scope R7). -/
  width : Nat
  /-- What changes as the machine runs. -/
  core : CoreState width
  deriving DecidableEq, Repr

/-- The reasons a step could stop with a fault. There is none, and that is safe: the step is total (40_cycle
R142), the core's own fatal path is a next state with status ERROR (60_exceptions R212), and an out-of-range
address is an event or a dropped write (60_exceptions R210). -/
inductive Fault where
  deriving DecidableEq, Repr

/-- The reasons an instruction could be refused. -/
inductive Refusal where
  /-- An arm of `exec` whose instruction has no meaning yet would raise it; safe. No arm does. -/
  | notModelled (mnemonic : String)
  deriving DecidableEq, Repr

/-- The machine of width N right after power-on and `rst`, before a program is loaded (70_reset_and_hazards R240,
R241; log 8): the data memory holds its power-on draws and the instruction memory is empty. -/
def CoreState.reset (N : Nat) : CoreState N where
  regs := Vector.replicate 8 0
  pc := 0
  ir := 0
  irValid := false
  z := false
  cycleCount := 0
  temperature := Config.tempInit
  status := .idle
  lastError := none
  mem := ⟨[]⟩
  program := []
  log := []
  draws := 0

/-- The machine of the default width right after power-on and `rst` (00_scope R7, 70_reset_and_hazards R240). -/
def State.reset : State := ⟨Config.defaultWidth, CoreState.reset Config.defaultWidth⟩

end Sys2Proof.Machine
end

