-- ==== Sys2Proof/Machine/Ops.lean ====
section
/-! DEFINITION. The named operations over registers, memory, the trace port and the step's own phases: the
primitives of 00_scope R11, the phases of 40_cycle, the fatal path of 60_exceptions R212 (this machine's
exception entry) and the processor reset of 70_reset_and_hazards R240 (the only way out of it, R215). -/

namespace Sys2Proof.Machine

/-- What an instruction's meaning answers. -/
abbrev Result := Host.Outcome State Fault Refusal

variable {N : Nat}

/-- The machine with the same N and the given core. -/
def State.withCore (s : State) (c : CoreState s.width) : State := ⟨s.width, c⟩

/-! ### Data memory (20_memory) -/

/-- The power-on contents of a cell: what an unlisted index reads as (20_memory R62, log 6). -/
def Memory.powerOnCell (N a : Nat) : Cell N := ⟨Config.powerOnValue N a, Config.powerOnTick a⟩

/-- The listed cell at an index, in a list of cells. -/
def Memory.lookup (a : Nat) : List (Nat × Cell N) → Option (Cell N)
  | [] => none
  | (k, c) :: rest => if k = a then some c else Memory.lookup a rest

/-- List the cell `c` at index `a`, keeping indices rising and replacing what was listed there. -/
def Memory.insert (a : Nat) (c : Cell N) : List (Nat × Cell N) → List (Nat × Cell N)
  | [] => [(a, c)]
  | (k, d) :: rest =>
    if a < k then (a, c) :: (k, d) :: rest
    else if a = k then (a, c) :: rest
    else (k, d) :: Memory.insert a c rest

/-- The contents of a cell: as last written, or its power-on draw (20_memory R62, R64). -/
def Memory.read (m : Memory N) (a : Nat) : Cell N := (Memory.lookup a m.cells).getD (Memory.powerOnCell N a)

/-- Set the contents of a cell. -/
def Memory.write (m : Memory N) (a : Nat) (c : Cell N) : Memory N := ⟨Memory.insert a c m.cells⟩

/-- The memory with every cell of a list written, in order. -/
def Memory.writeAll (m : Memory N) : List (Nat × Cell N) → Memory N
  | [] => m
  | (a, c) :: rest => (m.write a c).writeAll rest

/-- The canonical form: indices strictly rising and inside 0..1023 (20_memory R50). A listed cell has been
written, so no entry stands for the "not written" that an unlisted index reads as (log 6). -/
abbrev Memory.wf (m : Memory N) : Prop :=
  m.cells.Pairwise (fun p q => p.1 < q.1) ∧ ∀ p ∈ m.cells, p.1 < Config.memSize

/-- `InRange(a)` (20_memory R53). -/
def inRange (a : Word N) : Bool := decide (a.toNat < Config.memSize)

/-- `MemRead(addr, 1)` (00_scope R11). -/
def CoreState.memRead (s : CoreState N) (a : Nat) : Word N := (s.mem.read a).value

/-- `MemWrite(addr, 1, v)`: set a cell's value (00_scope R11). -/
def CoreState.memWrite (s : CoreState N) (a : Nat) (v : Word N) : CoreState N :=
  { s with mem := s.mem.write a ⟨v, (s.mem.read a).tick⟩ }

/-- `TickWrite(addr, t)`: set a cell's `lastAccessTick` (00_scope R11). -/
def CoreState.tickWrite (s : CoreState N) (a : Nat) (t : Tick) : CoreState N :=
  { s with mem := s.mem.write a ⟨(s.mem.read a).value, t⟩ }

/-! ### Registers and flag (00_scope R11) -/

/-- `x[i]`. -/
def CoreState.readReg (s : CoreState N) (r : Reg) : Word N := s.regs[r]

/-- `x[i] <- v`. -/
def CoreState.writeReg (s : CoreState N) (r : Reg) (v : Word N) : CoreState N := { s with regs := s.regs.set r v }

/-- `Z <- b`. -/
def CoreState.setZ (s : CoreState N) (b : Bool) : CoreState N := { s with z := b }

/-! ### Trace port (40_cycle R127, R128) -/

/-- `emit E`: put an event on the trace port. -/
def CoreState.emit (s : CoreState N) (e : Event N) : CoreState N := { s with log := s.log ++ [e] }

/-- The event of the draw `tr` with index `n`: none, or one TRACE of the given op (40_cycle R128). -/
def optTrace (N : Nat) (op : BitVec 4) (n : Nat) : Option (Event N) :=
  match Config.tr N n with
  | none => none
  | some p => some ⟨.trace, op, p.a, p.b, p.c⟩

/-- `may emit TRACE` (40_cycle R128). -/
def CoreState.mayTrace (s : CoreState N) (op : BitVec 4) : CoreState N :=
  { s with log := s.log ++ (optTrace N op s.draws).toList }

/-! ### Program counter and status -/

/-- `pc + 1`, the next-PC value of an instruction that does not jump (40_cycle R135). -/
def CoreState.nextPc (s : CoreState N) : Word N := s.pc + 1

/-- The advance: `pc <- npc` if `status` is RUNNING, else `pc` is kept (40_cycle R136). -/
def CoreState.advance (s : CoreState N) (npc : Word N) : CoreState N :=
  { s with pc := if s.status = .running then npc else s.pc }

/-- `status <- HALTED` (44_system R202, 40_cycle R124). -/
def CoreState.setHalted (s : CoreState N) : CoreState N := { s with status := .halted }

/-- HALTED and ERROR (00_scope R13, 40_cycle R121). -/
def Status.terminal : Status → Bool
  | .idle => false
  | .running => false
  | .halted => true
  | .error => true

/-- The numeric encoding of `status` (10_state R32). -/
def Status.code : Status → BitVec 2
  | .idle => 0
  | .running => 1
  | .halted => 2
  | .error => 3

/-- The numeric encoding of `lastError` (10_state R32). -/
def lastErrorCode : Option Malformed → BitVec 2
  | none => 0
  | some m => m.code

/-- The numeric encoding of an event's kind (40_cycle R127). -/
def EventKind.code : EventKind → BitVec 2
  | .trace => 0
  | .output => 1
  | .segFault => 2
  | .halt => 3

/-! ### The phases of a step (40_cycle) -/

/-- The cycle count (40_cycle R122): modulo 2^32 (10_state R35). -/
def CoreState.countCycle (s : CoreState N) : CoreState N := { s with cycleCount := s.cycleCount + 1 }

/-- The fetch: `IMem(pc)`, or nothing when `pc >= L` (40_cycle R124, R125). -/
def CoreState.fetch (s : CoreState N) : Option (InstrWord N) := s.program[s.pc.toNat]?

/-- The temperature raised by `delta` and clamped at TEMP_MAX (40_cycle R131). -/
def raiseTemperature (t delta : Rat) : Rat :=
  if t + delta ≤ Config.tempMax then t + delta else Config.tempMax

/-- The phases between fetch and decode (40_cycle R123, R130, R131): `status <- RUNNING`, `IR <- w`,
`IR_valid <- 1`, the temperature raised; and the next index of draws, which is this step's (log 5). -/
def CoreState.beginInstruction (s : CoreState N) (w : InstrWord N) : CoreState N :=
  { s with
    status := .running
    ir := w
    irValid := true
    temperature := raiseTemperature s.temperature (Config.delta (s.draws + 1))
    draws := s.draws + 1 }

/-- Fatal-path entry (60_exceptions R212): `status <- ERROR`, `lastError <- code`, `pc` kept, and an
optional TRACE with the fetched word's OP. -/
def CoreState.fatal (s : CoreState N) (code : Malformed) : CoreState N :=
  ({ s with status := .error, lastError := some code }).mayTrace (opField s.ir)

/-- The processor reset `rst` (70_reset_and_hazards R240): ProcessorState at its initial values, nothing else
changed. It is the only recovery from the fatal path (60_exceptions R215). -/
def CoreState.resetProcessor (s : CoreState N) : CoreState N :=
  { s with
    regs := Vector.replicate 8 0
    pc := 0
    ir := 0
    irValid := false
    z := false
    cycleCount := 0
    temperature := Config.tempInit
    status := .idle
    lastError := none }

/-! ### Instruction memory and draws -/

/-- The program with the word `w` at index `k`, padded with all-zeros words where it was shorter. -/
def programWith (words : List (InstrWord N)) (k : Nat) (w : InstrWord N) : List (InstrWord N) :=
  (words ++ List.replicate (k + 1 - words.length) 0).set k w

/-- The draw `now` of the current step (20_memory R52). -/
def CoreState.now (s : CoreState N) : Tick := Config.now s.draws

end Sys2Proof.Machine
end

