-- ==== Sys2Proof/Machine/Flags.lean ====
section
/-! DEFINITION. The zero-flag update logic of 41_alu R166: its two writers. There is no other flag (10_state R30). -/

namespace Sys2Proof.Machine

/-- The zero detector of SUB: 1 exactly when every bit of the result is 0 (41_alu R164). -/
def zeroFlag {N : Nat} (result : Word N) : Bool := result == 0

/-- The flag of CMP: 1 exactly when the two values are equal bit for bit (41_alu R165). -/
def equalFlag {N : Nat} (x operand : Word N) : Bool := x == operand

/-- `zext_N(Z)`, as CMP's TRACE carries the flag (41_alu R165). -/
def flagAsWord (N : Nat) (z : Bool) : Word N := (BitVec.ofBool z).setWidth N

end Sys2Proof.Machine
end

