-- ==== Sys2Proof/Machine/Operands.lean ====
section
/-! DEFINITION. The operand forms of 30_encoding R83 to R85 (a number in B is below 2^N in every decoded
instruction, so the word of it is the field) and the effective addresses of 43_memory_ops R192. -/

namespace Sys2Proof.Machine

variable {N : Nat}

/-- A register operand in A or B: the register's value (30_encoding R83). -/
def registerOperand (s : CoreState N) (r : Reg) : Word N := s.readReg r

/-- An immediate operand in B: the field itself, neither extended nor shifted (30_encoding R84). -/
def immediateOperand (N b : Nat) : Word N := BitVec.ofNat N b

/-- A jump target in B: the field itself, an instruction index (30_encoding R85). -/
def jumpTarget (N b : Nat) : Word N := BitVec.ofNat N b

/-- The register-indirect address of LOAD and of STORE with M = 0: the full register value (43_memory_ops R192). -/
def indirectAddress (s : CoreState N) (r : Reg) : Word N := s.readReg r

/-- The absolute address of STORE with M = 1: the B field (43_memory_ops R192). -/
def absoluteAddress (N b : Nat) : Word N := BitVec.ofNat N b

end Sys2Proof.Machine
end

