-- ==== Sys2Proof/Machine/Alu.lean ====
section
/-! DEFINITION. MOV, ADD, SUB and CMP (41_alu R160 to R165). -/

namespace Sys2Proof.Machine

variable {N : Nat}

/-- A TRACE event (40_cycle R127). -/
def traceEvent (op : OpCode) (a b c : Word N) : Event N := ⟨.trace, op.number, a, b, c⟩

/-- MOV's effect (41_alu R162): `x[d] <- b`, and its TRACE. -/
def moveTo (d : Reg) (v : Word N) (s : CoreState N) : CoreState N :=
  ((s.writeReg d v).emit (traceEvent .mov (regAsWord N d) v 0)).advance s.nextPc

/-- MOV (41_alu R162). -/
def execMov (d : Reg) (v : Nat) (s : State) : Result :=
  .next (s.withCore (moveTo d (immediateOperand s.width v) s.core))

/-- ADD's effect once its addend is known (41_alu R163): the sum modulo 2^N, and its TRACE. -/
def addTo (d : Reg) (addend : Word N) (s : CoreState N) : CoreState N :=
  ((s.writeReg d (s.readReg d + addend)).emit
    (traceEvent .add (s.readReg d) addend (s.readReg d + addend))).advance s.nextPc

/-- ADD with M = 0 (41_alu R163). -/
def execAddReg (d r : Reg) (s : State) : Result :=
  .next (s.withCore (addTo d (registerOperand s.core r) s.core))

/-- ADD with M = 1 (41_alu R163). -/
def execAddImm (d : Reg) (v : Nat) (s : State) : Result :=
  .next (s.withCore (addTo d (immediateOperand s.width v) s.core))

/-- SUB's effect once its subtrahend is known (41_alu R164): the difference modulo 2^N, `Z`, an optional TRACE. -/
def subtractFrom (d : Reg) (subtrahend : Word N) (s : CoreState N) : CoreState N :=
  (((s.writeReg d (s.readReg d - subtrahend)).setZ (zeroFlag (s.readReg d - subtrahend))).mayTrace
    OpCode.sub.number).advance s.nextPc

/-- SUB (41_alu R164). -/
def execSub (d r : Reg) (s : State) : Result :=
  .next (s.withCore (subtractFrom d (registerOperand s.core r) s.core))

/-- CMP's effect once its operand is known (41_alu R165): `Z` written, and its TRACE. -/
def compareWith (a : Reg) (operand : Word N) (s : CoreState N) : CoreState N :=
  ((s.setZ (equalFlag (s.readReg a) operand)).emit
    (traceEvent .cmp (s.readReg a) operand (flagAsWord N (equalFlag (s.readReg a) operand)))).advance s.nextPc

/-- CMP with M = 0 (41_alu R165). -/
def execCmpReg (a r : Reg) (s : State) : Result :=
  .next (s.withCore (compareWith a (registerOperand s.core r) s.core))

/-- CMP with M = 1 (41_alu R165). -/
def execCmpImm (a : Reg) (v : Nat) (s : State) : Result :=
  .next (s.withCore (compareWith a (immediateOperand s.width v) s.core))

end Sys2Proof.Machine
end

