-- ==== Sys2Proof/Machine/Branch.lean ====
section
/-! DEFINITION. JMP and JZ (42_branch R180 to R183). -/

namespace Sys2Proof.Machine

variable {N : Nat}

/-- A branch of the given opcode (42_branch R180, R181): an optional TRACE, and the next PC, unchecked. -/
def branchTo (op : OpCode) (npc : Word N) (s : CoreState N) : CoreState N := (s.mayTrace op.number).advance npc

/-- JMP (42_branch R180): the target becomes the next PC. -/
def execJmp (t : Nat) (s : State) : Result :=
  .next (s.withCore (branchTo .jmp (jumpTarget s.width t) s.core))

/-- JZ (42_branch R181): as JMP when `Z` is 1, else the next PC stays `pc + 1`. -/
def execJz (t : Nat) (s : State) : Result :=
  .next (s.withCore (branchTo .jz (if s.core.z then jumpTarget s.width t else s.core.nextPc) s.core))

end Sys2Proof.Machine
end

