-- ==== Sys2Proof/Machine/MemoryOps.lean ====
section
/-! DEFINITION. LOAD and STORE and the memory controller (43_memory_ops R190 to R193). -/

namespace Sys2Proof.Machine

variable {N : Nat}

/-- The SEGFAULT event of an out-of-range LOAD (43_memory_ops R190). -/
def segFaultEvent (ea : Word N) : Event N := ⟨.segFault, OpCode.load.number, ea, 0, 0⟩

/-- LOAD's effect at an effective address (43_memory_ops R190): in range, the register and the cell's tick are
written and a TRACE may be emitted; out of range, one SEGFAULT and nothing else. -/
def loadFrom (d : Reg) (ea : Word N) (s : CoreState N) : CoreState N :=
  if inRange ea then
    ((s.writeReg d (s.memRead ea.toNat)).tickWrite ea.toNat s.now).mayTrace OpCode.load.number
  else s.emit (segFaultEvent ea)

/-- LOAD (43_memory_ops R190). -/
def execLoad (d r : Reg) (s : State) : Result :=
  .next (s.withCore ((loadFrom d (indirectAddress s.core r) s.core).advance s.core.nextPc))

/-- STORE's effect at an effective address (43_memory_ops R191): in range, the cell's value and tick are
written and a TRACE may be emitted; out of range, nothing. -/
def storeTo (ea : Word N) (v : Word N) (s : CoreState N) : CoreState N :=
  if inRange ea then
    ((s.memWrite ea.toNat v).tickWrite ea.toNat s.now).mayTrace OpCode.store.number
  else s

/-- STORE with M = 0 (43_memory_ops R191). -/
def execStoreReg (r t : Reg) (s : State) : Result :=
  .next (s.withCore ((storeTo (indirectAddress s.core t) (s.core.readReg r) s.core).advance s.core.nextPc))

/-- STORE with M = 1 (43_memory_ops R191). -/
def execStoreAbs (r : Reg) (addr : Nat) (s : State) : Result :=
  .next (s.withCore ((storeTo (absoluteAddress s.width addr) (s.core.readReg r) s.core).advance s.core.nextPc))

end Sys2Proof.Machine
end

