-- ==== Sys2Proof/Machine/System.lean ====
section
/-! DEFINITION. HALT and PRINT (44_system R200, R202). -/

namespace Sys2Proof.Machine

variable {N : Nat}

/-- The OUTPUT event of PRINT (44_system R200). -/
def outputEvent (v : Word N) : Event N := ⟨.output, OpCode.print.number, v, 0, 0⟩

/-- The HALT event (44_system R202). -/
def haltEvent (N : Nat) : Event N := ⟨.halt, OpCode.halt.number, 0, 0, 0⟩

/-- HALT (44_system R202): `status <- HALTED` and its event; the advance then keeps `pc` (40_cycle R136). -/
def execHalt (s : State) : Result :=
  .next (s.withCore ((s.core.setHalted.emit (haltEvent s.width)).advance s.core.nextPc))

/-- PRINT (44_system R200): one OUTPUT event with the register's value. -/
def execPrint (r : Reg) (s : State) : Result :=
  .next (s.withCore ((s.core.emit (outputEvent (registerOperand s.core r))).advance s.core.nextPc))

end Sys2Proof.Machine
end

