-- ==== Sys2Proof/Machine/Dispatch.lean ====
section
/-! DEFINITION. The execute phase (40_cycle R133): each instruction's one meaning. -/

namespace Sys2Proof.Machine

def exec (i : Instr) (s : State) : Host.Outcome State Fault Refusal :=
  match i with
  | .mov d v => Sys2Proof.Machine.execMov d v s
  | .addReg d r => Sys2Proof.Machine.execAddReg d r s
  | .addImm d v => Sys2Proof.Machine.execAddImm d v s
  | .sub d r => Sys2Proof.Machine.execSub d r s
  | .cmpReg a r => Sys2Proof.Machine.execCmpReg a r s
  | .cmpImm a v => Sys2Proof.Machine.execCmpImm a v s
  | .jmp t => Sys2Proof.Machine.execJmp t s
  | .jz t => Sys2Proof.Machine.execJz t s
  | .load d r => Sys2Proof.Machine.execLoad d r s
  | .storeReg r t => Sys2Proof.Machine.execStoreReg r t s
  | .storeAbs r addr => Sys2Proof.Machine.execStoreAbs r addr s
  | .halt => Sys2Proof.Machine.execHalt s
  | .print r => Sys2Proof.Machine.execPrint r s

end Sys2Proof.Machine
end

