-- ==== Sys2Proof/Machine/Step.lean ====
section
/-! DEFINITION. One step of the engine, in the order of 40_cycle R138, and the placing of one instruction
where the next step fetches it. -/

namespace Sys2Proof.Machine

/-- One step (40_cycle R138): a no-op on a terminal status (R121); else the cycle is counted (R122) and, past
the end of the program, the machine halts (R124); else the fetched word is decoded (R132) and takes the fatal
path (R134) or is executed (R133). -/
def step (s : State) : Host.Outcome State Fault Refusal :=
  if s.core.status.terminal then .next s
  else
    match s.core.countCycle.fetch with
    | none => .next (s.withCore s.core.countCycle.setHalted)
    | some w =>
      match decode w with
      | .error code => .next (s.withCore ((s.core.countCycle.beginInstruction w).fatal code))
      | .ok i => exec i (s.withCore (s.core.countCycle.beginInstruction w))

/-- The core with the word `w` where the next step fetches: at `pc` in the loaded program. A terminal status, on
which no step fetches, becomes IDLE with no error, and the one index no loadable program reaches, 2^N - 1,
becomes 0 (log 12). -/
def CoreState.withFetchWord {N : Nat} (s : CoreState N) (w : InstrWord N) : CoreState N :=
  let pc := if s.pc.toNat < Config.maxProgramLength N then s.pc else 0
  { s with
    pc := pc
    program := programWith s.program pc.toNat w
    status := if s.status.terminal then .idle else s.status
    lastError := if s.status.terminal then none else s.lastError }

/-- The machine with the word `w`, its bits at or above `nbits` zero, where the next step fetches (log 12). -/
def State.withFetchWord (s : State) (nbits w : Nat) : State :=
  s.withCore (s.core.withFetchWord (BitVec.ofNat (s.width + 16) (w % 2 ^ nbits)))

end Sys2Proof.Machine
end

