-- ==== Sys2Proof/Machine/Assembler.lean ====
section
/-! DEFINITION. The assembler of 30_encoding.md section 5 and 6: the tagged forms (R97), the legacy mapping
(R100) and its refusals (R101), and labels. A register operand, immediate or index outside its range yields
no word (decision D8). -/

namespace Sys2Proof.Machine

/-- Why the assembler refuses (30_encoding R101; the last six are of text and labels, log 15). -/
inductive AsmRefusal where
  | arity
  | registerRange
  | immediateRange
  | indexRange
  | negativeCmp
  | negativeStore
  | wrongOperand
  | unknownMnemonic
  | badOperand
  | badLabel
  | duplicateLabel
  | undefinedLabel
  | programTooLong
  deriving DecidableEq, Repr

/-- An operand as written: `Rk`, `#v`, a bare integer (legacy notation) or a label (30_encoding R97). -/
inductive AsmOperand where
  | reg (r : Reg)
  | imm (v : Int)
  | bare (v : Int)
  | label (name : List Char)
  deriving DecidableEq, Repr

/-- A legacy instruction: the source's record, whose `id` and `description` are not encoded (30_encoding R99). -/
structure LegacyInstr where
  id : String
  operation : OpCode
  args : List Int
  description : String
  deriving DecidableEq, Repr

/-- `reg(k)` (30_encoding R100). -/
def asmReg (k : Int) : Except AsmRefusal Reg :=
  if 0 ≤ k ∧ k ≤ 7 then .ok (Fin.ofNat 8 k.toNat) else .error .registerRange

/-- `imm(v)`: `v mod 2^N` (30_encoding R100). -/
def asmImm (N : Nat) (v : Int) : Except AsmRefusal Nat :=
  if -((2 ^ (N - 1) : Nat) : Int) ≤ v ∧ v ≤ ((2 ^ (N - 1) : Nat) : Int) - 1 then .ok (BitVec.ofInt N v).toNat
  else .error .immediateRange

/-- `uidx(t)` (30_encoding R100). -/
def asmIndex (N : Nat) (t : Int) : Except AsmRefusal Nat :=
  if 0 ≤ t ∧ t ≤ ((2 ^ N : Nat) : Int) - 1 then .ok t.toNat else .error .indexRange

/-- A register position: `Rk`, or a bare register index. -/
def asmRegister (o : AsmOperand) : Except AsmRefusal Reg :=
  match o with
  | .reg r => .ok r
  | .bare k => asmReg k
  | .imm _ => .error .wrongOperand
  | .label _ => .error .wrongOperand

/-- Put together two operands, refusing what either refuses. -/
def asmBoth {α β : Type} (x : Except AsmRefusal α) (y : Except AsmRefusal β) (f : α → β → Instr) :
    Except AsmRefusal Instr :=
  match x, y with
  | .error e, _ => .error e
  | .ok _, .error e => .error e
  | .ok a, .ok b => .ok (f a b)

/-- MOV: `#v`, or a bare value (30_encoding R97, R100). -/
def asmMov (N : Nat) (d o : AsmOperand) : Except AsmRefusal Instr :=
  match o with
  | .imm v => asmBoth (asmRegister d) (asmImm N v) .mov
  | .bare v => asmBoth (asmRegister d) (asmImm N v) .mov
  | .reg _ => .error .wrongOperand
  | .label _ => .error .wrongOperand

/-- ADD: a register, `#v`, or a bare value read by magnitude (30_encoding R97, R100). -/
def asmAdd (N : Nat) (d o : AsmOperand) : Except AsmRefusal Instr :=
  match o with
  | .reg r => asmBoth (asmRegister d) (.ok r) .addReg
  | .imm v => asmBoth (asmRegister d) (asmImm N v) .addImm
  | .bare v =>
    if 0 ≤ v ∧ v ≤ 7 then asmBoth (asmRegister d) (asmReg v) .addReg
    else asmBoth (asmRegister d) (asmImm N v) .addImm
  | .label _ => .error .wrongOperand

/-- CMP: a register, `#v`, or a bare value read by magnitude and refused when negative (30_encoding R97,
R100, R101). -/
def asmCmp (N : Nat) (a o : AsmOperand) : Except AsmRefusal Instr :=
  match o with
  | .reg r => asmBoth (asmRegister a) (.ok r) .cmpReg
  | .imm v => asmBoth (asmRegister a) (asmImm N v) .cmpImm
  | .bare v =>
    if v < 0 then .error .negativeCmp
    else if v ≤ 7 then asmBoth (asmRegister a) (asmReg v) .cmpReg
    else asmBoth (asmRegister a) (asmImm N v) .cmpImm
  | .label _ => .error .wrongOperand

/-- STORE: an address register, `#addr`, or a bare value read by magnitude and refused when negative
(30_encoding R97, R100, R101). -/
def asmStore (N : Nat) (s o : AsmOperand) : Except AsmRefusal Instr :=
  match o with
  | .reg r => asmBoth (asmRegister s) (.ok r) .storeReg
  | .imm v => asmBoth (asmRegister s) (asmIndex N v) .storeAbs
  | .bare v =>
    if v < 0 then .error .negativeStore
    else if v ≤ 7 then asmBoth (asmRegister s) (asmReg v) .storeReg
    else asmBoth (asmRegister s) (asmIndex N v) .storeAbs
  | .label _ => .error .wrongOperand

/-- A jump target: an instruction index (30_encoding R97); labels are resolved before. -/
def asmTarget (N : Nat) (o : AsmOperand) (f : Nat → Instr) : Except AsmRefusal Instr :=
  match o with
  | .bare t =>
    match asmIndex N t with
    | .error e => .error e
    | .ok w => .ok (f w)
  | .reg _ => .error .wrongOperand
  | .imm _ => .error .wrongOperand
  | .label _ => .error .undefinedLabel

/-- PRINT's one operand (30_encoding R97). -/
def asmPrint (o : AsmOperand) : Except AsmRefusal Instr :=
  match asmRegister o with
  | .error e => .error e
  | .ok r => .ok (.print r)

/-- Assemble one instruction from its opcode and operands; a wrong number of operands is refused
(30_encoding R97, R100, R101). -/
def assembleInstr (N : Nat) (op : OpCode) (operands : List AsmOperand) : Except AsmRefusal Instr :=
  match op, operands with
  | .mov, [d, o] => asmMov N d o
  | .add, [d, o] => asmAdd N d o
  | .sub, [d, o] => asmBoth (asmRegister d) (asmRegister o) .sub
  | .cmp, [a, o] => asmCmp N a o
  | .jmp, [t] => asmTarget N t .jmp
  | .jz, [t] => asmTarget N t .jz
  | .load, [d, o] => asmBoth (asmRegister d) (asmRegister o) .load
  | .store, [s, o] => asmStore N s o
  | .halt, [] => .ok .halt
  | .print, [r] => asmPrint r
  | .mov, _ => .error .arity
  | .add, _ => .error .arity
  | .sub, _ => .error .arity
  | .cmp, _ => .error .arity
  | .jmp, _ => .error .arity
  | .jz, _ => .error .arity
  | .load, _ => .error .arity
  | .store, _ => .error .arity
  | .halt, _ => .error .arity
  | .print, _ => .error .arity

/-- The legacy mapping (30_encoding R100): every argument is a bare integer. -/
def assembleLegacy (N : Nat) (l : LegacyInstr) : Except AsmRefusal Instr :=
  assembleInstr N l.operation (l.args.map AsmOperand.bare)

/-- The word of a legacy instruction (30_encoding R99, R100). -/
def legacyWord (N : Nat) (l : LegacyInstr) : Except AsmRefusal (InstrWord N) :=
  match assembleLegacy N l with
  | .error e => .error e
  | .ok i => .ok (encode N i)

/-- The words of a legacy program; a program with a refused instruction yields none (30_encoding R101). -/
def legacyProgram (N : Nat) : List LegacyInstr → Except AsmRefusal (List (InstrWord N))
  | [] => .ok []
  | l :: rest =>
    match legacyWord N l, legacyProgram N rest with
    | .error e, _ => .error e
    | .ok _, .error e => .error e
    | .ok w, .ok ws => .ok (w :: ws)

/-! ### Programs with labels (30_encoding R97) -/

/-- A line: at most one label at its start, at most one instruction (30_encoding R97). -/
structure AsmLine where
  label : Option (List Char)
  instr : Option (OpCode × List AsmOperand)
  deriving DecidableEq, Repr

/-- The labels of a program and the index of the next instruction each stands for (30_encoding R97). DESIGN CHOICE:
a label after which no instruction follows stands for L, one past the last instruction; the spec says nothing of it
(log 15). -/
def labelTable : List AsmLine → Nat → List (List Char × Nat)
  | [], _ => []
  | line :: rest, k =>
    (match line.label with
      | none => []
      | some name => [(name, k)]) ++
      labelTable rest (match line.instr with
        | none => k
        | some _ => k + 1)

/-- The index a label stands for. -/
def findLabel (name : List Char) : List (List Char × Nat) → Option Nat
  | [] => none
  | (n, k) :: rest => if n = name then some k else findLabel name rest

/-- Assemble one instruction of a program, its jump label resolved. -/
def assembleWith (N : Nat) (labels : List (List Char × Nat)) (op : OpCode) (operands : List AsmOperand) :
    Except AsmRefusal Instr :=
  match op, operands with
  | .jmp, [.label name] =>
    match findLabel name labels with
    | none => .error .undefinedLabel
    | some k => assembleInstr N .jmp [.bare k]
  | .jz, [.label name] =>
    match findLabel name labels with
    | none => .error .undefinedLabel
    | some k => assembleInstr N .jz [.bare k]
  | _, _ => assembleInstr N op operands

/-- The words of the lines of a program, in order. -/
def assembleLines (N : Nat) (labels : List (List Char × Nat)) : List AsmLine → Except AsmRefusal (List (InstrWord N))
  | [] => .ok []
  | line :: rest =>
    match line.instr with
    | none => assembleLines N labels rest
    | some (op, operands) =>
      match assembleWith N labels op operands, assembleLines N labels rest with
      | .error e, _ => .error e
      | .ok _, .error e => .error e
      | .ok i, .ok ws => .ok (encode N i :: ws)

/-- Whether no label is given twice (log 15). -/
def labelsDistinct : List (List Char × Nat) → Bool
  | [] => true
  | (n, _) :: rest => (findLabel n rest).isNone && labelsDistinct rest

/-- Assemble a program (30_encoding R97): labels resolved, at most 2^N - 1 words (00_scope R7). -/
def assembleProgram (N : Nat) (lines : List AsmLine) : Except AsmRefusal (List (InstrWord N)) :=
  if labelsDistinct (labelTable lines 0) then
    match assembleLines N (labelTable lines 0) lines with
    | .error e => .error e
    | .ok ws => if ws.length ≤ Config.maxProgramLength N then .ok ws else .error .programTooLong
  else .error .duplicateLabel

end Sys2Proof.Machine
end

