-- ==== Sys2Proof/Machine/AsmText.lean ====
section
/-! DEFINITION. The text of the assembler syntax of 30_encoding R97: from characters to lines. What R97 does
not give (white space, the characters of a label, capital mnemonics) is log 15. -/

namespace Sys2Proof.Machine

/-- The pieces of a text between occurrences of a character. -/
def splitChars (c : Char) : List Char → List (List Char)
  | [] => [[]]
  | x :: rest =>
    match splitChars c rest with
    | [] => [[x]]
    | piece :: more => if x = c then [] :: piece :: more else (x :: piece) :: more

/-- A text without the white space at its ends. -/
def trimChars (cs : List Char) : List Char :=
  ((cs.dropWhile Char.isWhitespace).reverse.dropWhile Char.isWhitespace).reverse

/-- The value of a decimal digit. -/
def digitValue (c : Char) : Option Nat :=
  if '0' ≤ c ∧ c ≤ '9' then some (c.toNat - '0'.toNat) else none

/-- The value of a hexadecimal digit. -/
def hexValue (c : Char) : Option Nat :=
  if '0' ≤ c ∧ c ≤ '9' then some (c.toNat - '0'.toNat)
  else if 'a' ≤ c ∧ c ≤ 'f' then some (c.toNat - 'a'.toNat + 10)
  else if 'A' ≤ c ∧ c ≤ 'F' then some (c.toNat - 'A'.toNat + 10)
  else none

/-- The number that digits of a base spell after the number `acc`. -/
def digitsFrom (base : Nat) (digit : Char → Option Nat) : List Char → Nat → Option Nat
  | [], acc => some acc
  | c :: rest, acc =>
    match digit c with
    | none => none
    | some d => digitsFrom base digit rest (acc * base + d)

/-- A number of at least one digit. -/
def parseDigits (base : Nat) (digit : Char → Option Nat) (cs : List Char) : Option Nat :=
  match cs with
  | [] => none
  | c :: rest => digitsFrom base digit (c :: rest) 0

/-- A decimal integer with optional `-` (30_encoding R97). -/
def parseDecimal (cs : List Char) : Option Int :=
  match cs with
  | '-' :: rest => (parseDigits 10 digitValue rest).map (fun n => -(n : Int))
  | _ => (parseDigits 10 digitValue cs).map (fun n => (n : Int))

/-- The value after `#`: a decimal integer with optional `-`, or hexadecimal with `0x` (30_encoding R97). -/
def parseValue (cs : List Char) : Option Int :=
  match cs with
  | '0' :: 'x' :: rest => (parseDigits 16 hexValue rest).map (fun n => (n : Int))
  | _ => parseDecimal cs

/-- A label's name: a letter or `_`, then letters, digits and `_` (log 15). -/
def isLabelName (cs : List Char) : Bool :=
  match cs with
  | [] => false
  | c :: rest => (c.isAlpha || c == '_') && rest.all (fun x => x.isAlphanum || x == '_')

/-- `R0` to `R7`, in capitals or not (30_encoding R97). -/
def parseRegister (cs : List Char) : Option Reg :=
  match cs with
  | [r, d] =>
    if r = 'R' ∨ r = 'r' then
      match digitValue d with
      | none => none
      | some n => if h : n < 8 then some ⟨n, h⟩ else none
    else none
  | _ => none

/-- An operand (30_encoding R97). -/
def parseOperand (cs : List Char) : Except AsmRefusal AsmOperand :=
  match cs with
  | '#' :: rest =>
    match parseValue rest with
    | none => .error .badOperand
    | some v => .ok (.imm v)
  | _ =>
    match parseRegister cs, parseDecimal cs with
    | some r, _ => .ok (.reg r)
    | none, some v => .ok (.bare v)
    | none, none => if isLabelName cs then .ok (.label cs) else .error .badOperand

/-- A mnemonic of 30_encoding R86, in capitals (log 15). -/
def parseMnemonic (cs : List Char) : Option OpCode :=
  match cs with
  | ['M', 'O', 'V'] => some .mov
  | ['A', 'D', 'D'] => some .add
  | ['S', 'U', 'B'] => some .sub
  | ['C', 'M', 'P'] => some .cmp
  | ['J', 'M', 'P'] => some .jmp
  | ['J', 'Z'] => some .jz
  | ['L', 'O', 'A', 'D'] => some .load
  | ['S', 'T', 'O', 'R', 'E'] => some .store
  | ['H', 'A', 'L', 'T'] => some .halt
  | ['P', 'R', 'I', 'N', 'T'] => some .print
  | _ => none

/-- The operands, separated by commas (30_encoding R97). -/
def parseOperands : List (List Char) → Except AsmRefusal (List AsmOperand)
  | [] => .ok []
  | piece :: rest =>
    match parseOperand (trimChars piece), parseOperands rest with
    | .error e, _ => .error e
    | .ok _, .error e => .error e
    | .ok o, .ok os => .ok (o :: os)

/-- An instruction without its label; nothing on an empty text. -/
def parseInstr (cs : List Char) : Except AsmRefusal (Option (OpCode × List AsmOperand)) :=
  let text := trimChars cs
  let mnemonic := text.takeWhile (fun c => !c.isWhitespace)
  let after := trimChars (text.dropWhile (fun c => !c.isWhitespace))
  if text.isEmpty then .ok none
  else
    match parseMnemonic mnemonic with
    | none => .error .unknownMnemonic
    | some op =>
      match parseOperands (if after.isEmpty then [] else splitChars ',' after) with
      | .error e => .error e
      | .ok os => .ok (some (op, os))

/-- A line: an optional `name:` and an optional instruction (30_encoding R97). -/
def parseLine (cs : List Char) : Except AsmRefusal AsmLine :=
  match splitChars ':' cs with
  | [body] =>
    match parseInstr body with
    | .error e => .error e
    | .ok i => .ok ⟨none, i⟩
  | [name, body] =>
    if isLabelName (trimChars name) then
      match parseInstr body with
      | .error e => .error e
      | .ok i => .ok ⟨some (trimChars name), i⟩
    else .error .badLabel
  | _ => .error .badLabel

/-- The lines of a text. -/
def parseLines : List (List Char) → Except AsmRefusal (List AsmLine)
  | [] => .ok []
  | piece :: rest =>
    match parseLine piece, parseLines rest with
    | .error e, _ => .error e
    | .ok _, .error e => .error e
    | .ok l, .ok ls => .ok (l :: ls)

/-- The words of a program's text (30_encoding R97). -/
def assembleText (N : Nat) (text : List Char) : Except AsmRefusal (List (InstrWord N)) :=
  match parseLines (splitChars '\n' text) with
  | .error e => .error e
  | .ok lines => assembleProgram N lines

end Sys2Proof.Machine
end

