-- ==== Sys2Proof/Machine/HostPort.lean ====
section
/-! DEFINITION. The host's moves between steps (40_cycle R141, 20_memory R63, 10_state R33) and the machine
with its host: steps and host moves in one total order (20_memory R64, log 9). A host's words and values are
numbers; one that a core of the machine's width cannot hold is no move. -/

namespace Sys2Proof.Machine

/-- What the host may do between steps. Observing changes nothing (40_cycle R126), so it is no move; see
`CoreState.observe`. -/
inductive HostMove where
  /-- Power on: the data memory with the planted cells (index, value, tick) and power-on draws elsewhere, no
  program, and `rst` (70_reset_and_hazards R241, R243). -/
  | powerOn (planted : List (Nat × Nat × Tick))
  /-- Load a program, and `rst` (40_cycle R141, 70_reset_and_hazards R240). -/
  | loadProgram (words : List Nat)
  /-- Write `status` to show run or pause (10_state R33). -/
  | setStatus (st : Status)
  /-- Write a data-memory cell's value and tick: the ambient-activity simulator (20_memory R63). -/
  | writeCell (a v : Nat) (tick : Tick)
  deriving DecidableEq, Repr

/-- Whether index `a` is a cell and `v` a value of a cell (20_memory R50, R51). -/
def cellFits (N a v : Nat) : Bool := decide (a < Config.memSize) && decide (v < 2 ^ N)

/-- The planted cells of a power-on, as cells of width N. -/
def plantedCells (N : Nat) (planted : List (Nat × Nat × Tick)) : List (Nat × Cell N) :=
  planted.map (fun p => (p.1, ⟨BitVec.ofNat N p.2.1, p.2.2⟩))

/-- Power-on (70_reset_and_hazards R240, R241): everything is lost but the width and the draw counter, so that later
draws are fresh (log 5). Of two entries for one cell the last stands (log 14); no move if a planted index is no cell
or a planted value none of a cell. -/
def hostPowerOn (planted : List (Nat × Nat × Tick)) (s : State) : Option State :=
  if planted.all (fun p => cellFits s.width p.1 p.2.1) then
    some (s.withCore { CoreState.reset s.width with
      mem := (CoreState.reset s.width).mem.writeAll (plantedCells s.width planted)
      draws := s.core.draws })
  else none

/-- A program load (40_cycle R141): instruction memory replaced and ProcessorState reset, data memory kept; no
move for a program longer than 2^N - 1 words (00_scope R7) or with a number that is no word. -/
def hostLoadProgram (words : List Nat) (s : State) : Option State :=
  if words.length ≤ Config.maxProgramLength s.width ∧ words.all (fun w => decide (w < 2 ^ (s.width + 16))) = true then
    some (s.withCore ({ s.core with program := words.map (BitVec.ofNat (s.width + 16)) } :
      CoreState s.width).resetProcessor)
  else none

/-- A host write of `status` (10_state R33): ignored on a terminal status; the host never writes HALTED or ERROR. -/
def hostSetStatus (st : Status) (s : State) : Option State :=
  if st.terminal then none
  else if s.core.status.terminal then some s
  else some (s.withCore { s.core with status := st })

/-- A host write of a data-memory cell (20_memory R63); no move for an index that is no cell or a value that is none
of a cell. -/
def hostWriteCell (a v : Nat) (tick : Tick) (s : State) : Option State :=
  if cellFits s.width a v then
    some (s.withCore { s.core with mem := s.core.mem.write a ⟨BitVec.ofNat s.width v, tick⟩ })
  else none

/-- The state after a host move, or nothing where the host has no such move (40_cycle R141). -/
def hostMove (m : HostMove) (s : State) : Option State :=
  match m with
  | .powerOn planted => hostPowerOn planted s
  | .loadProgram words => hostLoadProgram words s
  | .setStatus st => hostSetStatus st s
  | .writeCell a v tick => hostWriteCell a v tick s

/-- A transition of the machine with its host: a requested step, or a host move between steps (20_memory R64). -/
inductive Move where
  | step
  | host (m : HostMove)
  deriving DecidableEq, Repr

/-- The state after a transition. -/
def move (m : Move) (s : State) : Option State :=
  match m with
  | .step =>
    match step s with
    | .next t => some t
    | .fault _ => none
    | .refused _ => none
  | .host h => hostMove h s

/-- The state after a sequence of transitions, in order; nothing if the host has no such move somewhere. -/
def runMoves : List Move → State → Option State
  | [], s => some s
  | m :: rest, s =>
    match move m s with
    | none => none
    | some t => runMoves rest t

end Sys2Proof.Machine
end

