-- ==== Sys2Proof/Machine/Ports.lean ====
section
/-! DEFINITION. The ports of 40_cycle R139 at transaction level: what a step drives on the instruction, data-memory
and event ports, and what the observation outputs show between steps (R126). -/

namespace Sys2Proof.Machine

variable {N : Nat}

/-- The data-memory port during the one access of a step: `dm_addr`, `dm_we`, `dm_wdata`, `dm_tick_we`, `dm_tick`
(40_cycle R139). `dm_wdata` is 0 where `dm_we` is 0, a value the spec does not give (log 17). -/
structure DmAccess (N : Nat) where
  addr : BitVec 10
  we : Bool
  wdata : Word N
  tickWe : Bool
  tick : Tick
  deriving DecidableEq, Repr

/-- What the data memory holds after an access (40_cycle R139): the value if `dm_we`, the tick if `dm_tick_we`. -/
def Memory.serve (m : Memory N) (p : DmAccess N) : Memory N :=
  m.write p.addr.toNat
    ⟨if p.we then p.wdata else (m.read p.addr.toNat).value,
      if p.tickWe then p.tick else (m.read p.addr.toNat).tick⟩

/-- The effective address of an instruction that accesses data memory (43_memory_ops R192). -/
def effectiveAddress (i : Instr) (s : CoreState N) : Option (Word N) :=
  match i with
  | .load _ r => some (indirectAddress s r)
  | .storeReg _ t => some (indirectAddress s t)
  | .storeAbs _ addr => some (absoluteAddress N addr)
  | .mov _ _ => none
  | .addReg _ _ => none
  | .addImm _ _ => none
  | .sub _ _ => none
  | .cmpReg _ _ => none
  | .cmpImm _ _ => none
  | .jmp _ => none
  | .jz _ => none
  | .halt => none
  | .print _ => none

/-- The value a STORE puts on `dm_wdata`; nothing for an instruction that writes no value (43_memory_ops R191). -/
def storedValue (i : Instr) (s : CoreState N) : Option (Word N) :=
  match i with
  | .storeReg r _ => some (s.readReg r)
  | .storeAbs r _ => some (s.readReg r)
  | .load _ _ => none
  | .mov _ _ => none
  | .addReg _ _ => none
  | .addImm _ _ => none
  | .sub _ _ => none
  | .cmpReg _ _ => none
  | .cmpImm _ _ => none
  | .jmp _ => none
  | .jz _ => none
  | .halt => none
  | .print _ => none

/-- The data-memory access of an instruction: none unless it has an address and the address is in range
(20_memory R54, R55). -/
def dmAccess (i : Instr) (s : CoreState N) : Option (DmAccess N) :=
  match effectiveAddress i s with
  | none => none
  | some ea =>
    if inRange ea then
      some ⟨ea.setWidth 10, (storedValue i s).isSome, (storedValue i s).getD 0, true, s.now⟩
    else none

/-- The event of an instruction, by the table of 40_cycle R129. -/
def instrEvent (i : Instr) (s : CoreState N) : Option (Event N) :=
  match i with
  | .mov d v => some ⟨.trace, 0, regAsWord N d, immediateOperand N v, 0⟩
  | .addReg d r => some ⟨.trace, 1, s.readReg d, s.readReg r, s.readReg d + s.readReg r⟩
  | .addImm d v =>
    some ⟨.trace, 1, s.readReg d, immediateOperand N v, s.readReg d + immediateOperand N v⟩
  | .sub _ _ => optTrace N 2 s.draws
  | .cmpReg a r => some ⟨.trace, 3, s.readReg a, s.readReg r, if s.readReg a = s.readReg r then 1 else 0⟩
  | .cmpImm a v =>
    some ⟨.trace, 3, s.readReg a, immediateOperand N v, if s.readReg a = immediateOperand N v then 1 else 0⟩
  | .jmp _ => optTrace N 4 s.draws
  | .jz _ => optTrace N 5 s.draws
  | .load _ r =>
    if inRange (s.readReg r) then optTrace N 6 s.draws else some ⟨.segFault, 6, s.readReg r, 0, 0⟩
  | .storeReg _ t => if inRange (s.readReg t) then optTrace N 7 s.draws else none
  | .storeAbs _ addr => if inRange (absoluteAddress N addr) then optTrace N 7 s.draws else none
  | .halt => some ⟨.halt, 8, 0, 0, 0⟩
  | .print r => some ⟨.output, 9, s.readReg r, 0, 0⟩

/-- What a step drives on its ports: `imem_addr` (nothing when no word is fetched), the data-memory access, and
the event of `ev_valid` and `ev_*` (40_cycle R139). -/
structure StepPorts (N : Nat) where
  imemAddr : Option (Word N)
  dm : Option (DmAccess N)
  event : Option (Event N)
  deriving DecidableEq, Repr

/-- The ports during the step from a state (40_cycle R129, R138, R139). -/
def stepPorts (s : CoreState N) : StepPorts N :=
  if s.status.terminal then ⟨none, none, none⟩
  else
    match s.fetch with
    | none => ⟨none, none, none⟩
    | some w =>
      match decode w with
      | .error _ => ⟨some s.pc, none, optTrace N (opField w) (s.draws + 1)⟩
      | .ok i =>
        ⟨some s.pc, dmAccess i (s.countCycle.beginInstruction w),
          instrEvent i (s.countCycle.beginInstruction w)⟩

/-- The observation outputs (40_cycle R126, R139), with the numeric codes of 10_state R32. -/
structure Observation (N : Nat) where
  regs : Vector (Word N) 8
  pc : Word N
  ir : InstrWord N
  irValid : BitVec 1
  z : BitVec 1
  cycleCount : BitVec 32
  temperature : Rat
  status : BitVec 2
  lastError : BitVec 2
  deriving DecidableEq, Repr

/-- What the host observes of ProcessorState between steps (40_cycle R126); it observes a data-memory cell
through `Memory.read`. -/
def CoreState.observe (s : CoreState N) : Observation N where
  regs := s.regs
  pc := s.pc
  ir := s.ir
  irValid := BitVec.ofBool s.irValid
  z := BitVec.ofBool s.z
  cycleCount := s.cycleCount
  temperature := s.temperature
  status := s.status.code
  lastError := lastErrorCode s.lastError

end Sys2Proof.Machine
end

