-- ==== Sys2Proof/Machine/Render.lean ====
section
/-! DEFINITION. The host's rendering of events and of the error code into text (40_cycle R127, 44_system R201,
10_state R34). Only the OUTPUT line and the word SegFault are the spec's; every other text is free (log 16). -/

namespace Sys2Proof.Machine

variable {N : Nat}

/-- The line of an OUTPUT event (44_system R201): the prefix and the signed decimal reading. -/
def outputLine (v : Word N) : String := ">> OUTPUT: " ++ toString v.toInt

/-- The trace line of an event (40_cycle R127). -/
def Event.line (e : Event N) : String :=
  match e.kind with
  | .trace => Config.traceText N e.op e.a e.b e.c
  | .output => outputLine e.a
  | .segFault => Config.segFaultBefore N e.a ++ "SegFault" ++ Config.segFaultAfter N e.a
  | .halt => Config.haltText

/-- The trace lines of the whole log, in order (40_cycle R127). -/
def CoreState.logLines (s : CoreState N) : List String := s.log.map Event.line

/-- The diagnostic message of `lastError`, absent when its code is 0 (10_state R34). -/
def errorMessage (e : Option Malformed) : Option String :=
  match e with
  | none => none
  | some m => some (Config.diagnosticText m.code)

end Sys2Proof.Machine
end

