-- ==== Sys2Proof/Safety.lean ====
section
/-! DEFINITION. The terms claims use: the invariant of every state, the frames of an instruction, what a program
can observe, and which write a cell's value comes from. -/

namespace Sys2Proof.Machine

variable {N : Nat}

/-- What holds of every core: the data memory in canonical form (20_memory R50), a loadable program
(00_scope R7), the temperature within its clamp (10_state R37), `lastError` set exactly when `status` is ERROR
(10_state R34), an empty IR holding 0 (10_state R36), and, on ERROR, `IR` the malformed word at index `pc`
that `lastError` describes (60_exceptions R211, R213). -/
structure CoreState.Inv (s : CoreState N) : Prop where
  memory : s.mem.wf
  length : s.program.length ≤ Config.maxProgramLength N
  tempLow : Config.tempMin ≤ s.temperature
  tempHigh : s.temperature ≤ Config.tempMax
  errorSet : s.lastError = none ↔ s.status ≠ .error
  irEmpty : s.irValid = false → s.ir = 0
  precise : ∀ code, s.lastError = some code →
    s.irValid = true ∧ decode s.ir = .error code ∧ s.fetch = some s.ir

/-- What holds of every machine: a width that the spec allows (00_scope R7, R8), and the invariant of its core. -/
structure State.Inv (s : State) : Prop where
  width : Config.minWidth ≤ s.width
  core : s.core.Inv

/-- A run has ended in this state: HALTED or ERROR (40_cycle R142). -/
def CoreState.ended (s : CoreState N) : Prop := s.status = .halted ∨ s.status = .error

/-- The core has taken the fatal path (60_exceptions R210, R212). A safe run never reaches such a state. -/
def CoreState.faulted (s : CoreState N) : Prop := s.status = .error

/-- Every cell of data memory reads as before, value and tick. -/
def SameMemory (s t : CoreState N) : Prop := ∀ a, t.mem.read a = s.mem.read a

/-- Every cell of data memory but one reads as before, value and tick. -/
def SameMemoryBut (a : Nat) (s t : CoreState N) : Prop := ∀ b, b ≠ a → t.mem.read b = s.mem.read b

/-- Every general register reads as before. -/
def SameRegs (s t : CoreState N) : Prop := ∀ r, t.readReg r = s.readReg r

/-- Every general register but one reads as before. -/
def SameRegsBut (d : Reg) (s t : CoreState N) : Prop := ∀ r, r ≠ d → t.readReg r = s.readReg r

/-- The state no instruction writes while it executes: the instruction register, the counters, the
temperature, the error code and the loaded program. -/
structure SameControl (s t : CoreState N) : Prop where
  ir : t.ir = s.ir
  irValid : t.irValid = s.irValid
  cycleCount : t.cycleCount = s.cycleCount
  temperature : t.temperature = s.temperature
  lastError : t.lastError = s.lastError
  program : t.program = s.program
  draws : t.draws = s.draws

/-- Two states a program cannot tell apart: they differ only in what 10_state R39 lists (`IR`, `IR_valid`,
`cycleCount`, `temperature`, `lastError`, the ticks), in the log and in the index of draws. -/
structure VisibleEq (s t : CoreState N) : Prop where
  regs : s.regs = t.regs
  pc : s.pc = t.pc
  z : s.z = t.z
  status : s.status = t.status
  program : s.program = t.program
  values : ∀ a, (s.mem.read a).value = (t.mem.read a).value

/-- The OUTPUT, SEGFAULT and HALT events of a log; TRACE events left out (40_cycle R128). -/
def reported (l : List (Event N)) : List (Event N) := l.filter (fun e => e.kind != .trace)

/-- The instruction that the next step executes: none on a terminal status, past the end, or on a malformed
word (60_exceptions R216). -/
def nextInstr (s : CoreState N) : Option Instr :=
  if s.status.terminal then none
  else
    match s.fetch with
    | none => none
    | some w =>
      match decode w with
      | .ok i => some i
      | .error _ => none

/-- The value a transition writes into the cell `a`, as a number: an in-range STORE's register, or a host write's
value (20_memory R54, R63). -/
def writtenBy (m : Move) (s : State) (a : Nat) : Option Nat :=
  match m with
  | .host (.writeCell b v _) => if b = a then some v else none
  | .host (.powerOn _) => none
  | .host (.loadProgram _) => none
  | .host (.setStatus _) => none
  | .step =>
    match nextInstr s.core with
    | none => none
    | some i =>
      match effectiveAddress i s.core, storedValue i s.core with
      | some ea, some v => if inRange ea ∧ ea.toNat = a then some v.toNat else none
      | _, _ => none

/-- The value of the latest write to the cell `a` in a sequence of transitions (20_memory R64). -/
def latestWrite : List Move → State → Nat → Option Nat
  | [], _, _ => none
  | m :: rest, s, a =>
    match move m s with
    | none => none
    | some t =>
      match latestWrite rest t a with
      | some v => some v
      | none => writtenBy m s a

end Sys2Proof.Machine
end

