-- ==== Sys2Proof/WellFormed.lean ====
section
/-! DEFINITION. When a word spells an instruction, from the prose of 30_encoding R88 and R90 to R93 (one
check each, in no order), beside the ordered decoder of R89; when an instruction is well formed at a width N (its
number in B fits, and its word is); and when a program may be loaded (00_scope R7). The field types of Instr admit no
register index outside 0..7 (10_state R24). -/

namespace Sys2Proof

/-- `OP` is one of the ten (30_encoding R90). -/
def opcodeLegal {N : Nat} (w : InstrWord N) : Bool := decide ((opField w).toNat < 10)

/-- `M` is allowed: not M = 0 for MOV, JMP, JZ; not M = 1 for SUB, LOAD, HALT, PRINT (30_encoding R93). -/
def modeLegal {N : Nat} (w : InstrWord N) : Bool :=
  match (opField w).toNat with
  | 0 => mField w
  | 4 => mField w
  | 5 => mField w
  | 2 => !mField w
  | 6 => !mField w
  | 8 => !mField w
  | 9 => !mField w
  | _ => true

/-- `RSV` is 0 (30_encoding R91). -/
def rsvLegal {N : Nat} (w : InstrWord N) : Bool := rsvField w == 0

/-- A is 0 for JMP, JZ and HALT (30_encoding R92). -/
def aLegal {N : Nat} (w : InstrWord N) : Bool :=
  match (opField w).toNat with
  | 4 => aField w == 0
  | 5 => aField w == 0
  | 8 => aField w == 0
  | _ => true

/-- `B[N-1:3]` is 0 wherever B is a register index: M = 0 for ADD, SUB, CMP, LOAD, STORE (30_encoding R92). -/
def bRegisterLegal {N : Nat} (w : InstrWord N) : Bool :=
  match (opField w).toNat, mField w with
  | 1, false => bHigh (bField w) == 0
  | 2, false => bHigh (bField w) == 0
  | 3, false => bHigh (bField w) == 0
  | 6, false => bHigh (bField w) == 0
  | 7, false => bHigh (bField w) == 0
  | _, _ => true

/-- B is 0 for HALT and PRINT (30_encoding R92). -/
def bUnusedLegal {N : Nat} (w : InstrWord N) : Bool :=
  match (opField w).toNat with
  | 8 => bField w == 0
  | 9 => bField w == 0
  | _ => true

/-- Every field that must be zero is (30_encoding R91, R92). -/
def reservedLegal {N : Nat} (w : InstrWord N) : Bool :=
  rsvLegal w && aLegal w && bRegisterLegal w && bUnusedLegal w

/-- A word that is not malformed (30_encoding R88). -/
def wellFormedWord {N : Nat} (w : InstrWord N) : Bool := opcodeLegal w && modeLegal w && reservedLegal w

/-- The number in the B field of an instruction with an immediate, target or absolute address (30_encoding R84, R85). -/
def numberInB : Instr → Option Nat
  | .mov _ v => some v
  | .addImm _ v => some v
  | .cmpImm _ v => some v
  | .jmp t => some t
  | .jz t => some t
  | .storeAbs _ addr => some addr
  | .addReg _ _ => none
  | .sub _ _ => none
  | .cmpReg _ _ => none
  | .load _ _ => none
  | .storeReg _ _ => none
  | .halt => none
  | .print _ => none

/-- The number in B is one that N bits hold (30_encoding R84, R85). -/
def bFits (N : Nat) (i : Instr) : Bool :=
  match numberInB i with
  | none => true
  | some v => decide (v < 2 ^ N)

/-- An instruction is well formed at width N when its number in B fits and its word is well formed
(30_encoding R84, R85, R88). -/
def wellFormed (N : Nat) (i : Instr) : Bool := bFits N i && wellFormedWord (encode N i)

/-- A program that may be loaded: at most 2^N - 1 words (00_scope R7). A malformed word may stand in it
(30_encoding R88). -/
def loadable {N : Nat} (words : List (InstrWord N)) : Bool := decide (words.length ≤ Config.maxProgramLength N)

end Sys2Proof
end

