-- ==== Sys2Proof/Certificates/Slice0/Obligations.lean ====
section
/-! DEFINITION. The statements for the provers, from the numbered rules of spec/. -/

open Sys2Proof Sys2Proof.Machine

/-! ### Encoding (30_encoding) -/

/-- Words written out in 95_test_vectors section 2.1, one of each family and one of each malformation, at N = 16. -/
def Obligations.SpecWordsDecode : Prop :=
  decode (N := 16) 0x0800000A = .ok (.mov 0 10) ∧ decode (N := 16) 0x10000001 = .ok (.addReg 0 1) ∧
  decode (N := 16) 0x18000032 = .ok (.addImm 0 50) ∧ decode (N := 16) 0x20000001 = .ok (.sub 0 1) ∧
  decode (N := 16) 0x3A000063 = .ok (.cmpImm 2 99) ∧ decode (N := 16) 0x48000002 = .ok (.jmp 2) ∧
  decode (N := 16) 0x78000032 = .ok (.storeAbs 0 50) ∧ decode (N := 16) 0x80000000 = .ok .halt ∧
  decode (N := 16) 0x97000000 = .ok (.print 7) ∧
  decode (N := 16) 0xF8FFFFFF = .error .illegalOpcode ∧ decode (N := 16) 0x28000001 = .error .illegalMode ∧
  decode (N := 16) 0x1000000B = .error .reservedNonzero

/-- 30_encoding R81: at every N, the five fields are the whole of a word, OP from bit N+12 up, M bit N+11, A from bit
N+8, RSV from bit N, B from bit 0. -/
def Obligations.FieldsPlaced : Prop :=
  ∀ (N : Nat) (w : InstrWord N),
    w.toNat = (opField w).toNat * 2 ^ (N + 12) + (mField w).toNat * 2 ^ (N + 11) + (aField w).toNat * 2 ^ (N + 8) +
      (rsvField w).toNat * 2 ^ N + (bField w).toNat

/-- Decoding the word of any well-formed instruction, with any operands, gives the instruction back, at every N the
spec allows (30_encoding R89, R97, 00_scope R8). -/
def Obligations.DecodeEncode : Prop :=
  ∀ (N : Nat) (i : Instr), 12 ≤ N → wellFormed N i = true → decode (encode N i) = .ok i

/-- 30_encoding R94: a word is the word of exactly one well-formed instruction, or malformed. -/
def Obligations.WordIsOneInstructionOrMalformed : Prop :=
  ∀ (N : Nat) (w : InstrWord N), 12 ≤ N →
    (∀ i, decode w = .ok i → wellFormed N i = true ∧ encode N i = w ∧
      ∀ j, wellFormed N j = true → encode N j = w → j = i) ∧
    ((∃ code, decode w = .error code) ↔ ∀ i, wellFormed N i = true → encode N i ≠ w)

/-- 30_encoding R90: code 1 exactly on OP 10 to 15, whatever the other bits. -/
def Obligations.IllegalOpcodeExactly : Prop :=
  Malformed.illegalOpcode.code = 1 ∧
  ∀ (N : Nat) (w : InstrWord N), decode w = .error .illegalOpcode ↔ 10 ≤ (opField w).toNat

/-- 30_encoding R93: code 2 exactly on M = 0 for MOV, JMP, JZ and M = 1 for SUB, LOAD, HALT, PRINT, whatever
RSV, A and B. -/
def Obligations.IllegalModeExactly : Prop :=
  Malformed.illegalMode.code = 2 ∧
  ∀ (N : Nat) (w : InstrWord N), decode w = .error .illegalMode ↔
    (((opField w).toNat = 0 ∨ (opField w).toNat = 4 ∨ (opField w).toNat = 5) ∧ mField w = false) ∨
    (((opField w).toNat = 2 ∨ (opField w).toNat = 6 ∨ (opField w).toNat = 8 ∨ (opField w).toNat = 9) ∧
      mField w = true)

/-- 30_encoding R91, R92: with a legal OP and an allowed M, code 3 exactly on a nonzero RSV, a nonzero A of
JMP, JZ or HALT, a nonzero B[N-1:3] of a register B, or a nonzero B of HALT or PRINT. -/
def Obligations.ReservedNonzeroExactly : Prop :=
  Malformed.reservedNonzero.code = 3 ∧
  ∀ (N : Nat) (w : InstrWord N), opcodeLegal w = true → modeLegal w = true →
    (decode w = .error .reservedNonzero ↔
      rsvField w ≠ 0 ∨
      (((opField w).toNat = 4 ∨ (opField w).toNat = 5 ∨ (opField w).toNat = 8) ∧ aField w ≠ 0) ∨
      (((opField w).toNat = 1 ∨ (opField w).toNat = 2 ∨ (opField w).toNat = 3 ∨ (opField w).toNat = 6 ∨
        (opField w).toNat = 7) ∧ mField w = false ∧ bHigh (bField w) ≠ 0) ∨
      (((opField w).toNat = 8 ∨ (opField w).toNat = 9) ∧ bField w ≠ 0))

/-- 30_encoding R88: a word decodes to an instruction exactly when none of its three defects is there. -/
def Obligations.WellFormedWordDecodes : Prop :=
  ∀ (N : Nat) (w : InstrWord N), wellFormedWord w = true ↔ ∃ i, decode w = .ok i

/-- 30_encoding R103: at every N, a word is of a row of the opcode table exactly when it decodes to an instruction of
that row, and no word is of two rows. -/
def Obligations.TableRowsMatchDecoder : Prop :=
  ∀ N : Nat, 12 ≤ N →
    (∀ w : InstrWord N, ∀ r ∈ opcodeTable N, r.covers w = true ↔ ∃ i, decode w = .ok i ∧ tableRow N i = r) ∧
    (∀ i : Instr, tableRow N i ∈ opcodeTable N) ∧
    (∀ w : InstrWord N, ∀ r ∈ opcodeTable N, ∀ r' ∈ opcodeTable N,
      r.covers w = true → r'.covers w = true → r = r')

/-- 30_encoding R103, spec/opcode_table.json: the table at N = 16, row by row. -/
def Obligations.TableAtSixteen : Prop :=
  opcodeTable 16 =
    [⟨"MOV", 0x08000000, 0xF8FF0000⟩, ⟨"ADD", 0x10000000, 0xF8FFFFF8⟩, ⟨"ADD", 0x18000000, 0xF8FF0000⟩,
      ⟨"SUB", 0x20000000, 0xF8FFFFF8⟩, ⟨"CMP", 0x30000000, 0xF8FFFFF8⟩, ⟨"CMP", 0x38000000, 0xF8FF0000⟩,
      ⟨"JMP", 0x48000000, 0xFFFF0000⟩] ++
    [⟨"JZ", 0x58000000, 0xFFFF0000⟩, ⟨"LOAD", 0x60000000, 0xF8FFFFF8⟩, ⟨"STORE", 0x70000000, 0xF8FFFFF8⟩,
      ⟨"STORE", 0x78000000, 0xF8FF0000⟩, ⟨"HALT", 0x80000000, 0xFFFFFFFF⟩, ⟨"PRINT", 0x90000000, 0xF8FFFFFF⟩]

/-- 20_memory R58: the big-endian bytes of a word, each in its place, bits W-1..W-8 first, spell it; at N = 16 they
are bits 31..24, 23..16, 15..8 and 7..0. -/
def Obligations.WordBytesBigEndian : Prop :=
  (∀ (N : Nat) (w : InstrWord N), (N + 16) % 8 = 0 →
    ∃ bs, bytesOfWord w = some bs ∧ bs.length * 8 = N + 16 ∧
      (∀ k, k < bs.length → bs[k]? = some (w.extractLsb' (N + 16 - 8 * (k + 1)) 8)) ∧
      wordOfBytes N bs = some w) ∧
  (∀ w : InstrWord 16, ∃ bs, bytesOfWord w = some bs ∧ bs.length = 4 ∧
    bs[0]? = some (w.extractLsb' 24 8) ∧ bs[1]? = some (w.extractLsb' 16 8) ∧
    bs[2]? = some (w.extractLsb' 8 8) ∧ bs[3]? = some (w.extractLsb' 0 8) ∧ wordOfBytes 16 bs = some w)

/-! ### Data and ALU instructions (41_alu) -/

/-- 41_alu R162: what MOV does, and its frame. -/
def Obligations.MovResult : Prop :=
  ∀ (N : Nat) (d : Reg) (v : Word N) (s : CoreState N), s.status = .running →
    ∃ t : CoreState N, exec (.mov d v.toNat) ⟨N, s⟩ = .next ⟨N, t⟩ ∧
      t.readReg d = v ∧ SameRegsBut d s t ∧
      t.pc = s.pc + 1 ∧ t.z = s.z ∧ t.status = .running ∧
      t.log = s.log ++ [⟨.trace, 0, regAsWord N d, v, 0⟩] ∧ SameControl s t ∧ SameMemory s t

/-- 41_alu R163: what both forms of ADD do, and their frame. -/
def Obligations.AddResult : Prop :=
  (∀ (N : Nat) (d r : Reg) (s : CoreState N), s.status = .running →
    ∃ t : CoreState N, exec (.addReg d r) ⟨N, s⟩ = .next ⟨N, t⟩ ∧
      t.readReg d = s.readReg d + s.readReg r ∧ SameRegsBut d s t ∧
      t.pc = s.pc + 1 ∧ t.z = s.z ∧ t.status = .running ∧
      t.log = s.log ++ [⟨.trace, 1, s.readReg d, s.readReg r, s.readReg d + s.readReg r⟩] ∧
      SameControl s t ∧ SameMemory s t) ∧
  (∀ (N : Nat) (d : Reg) (v : Word N) (s : CoreState N), s.status = .running →
    ∃ t : CoreState N, exec (.addImm d v.toNat) ⟨N, s⟩ = .next ⟨N, t⟩ ∧
      t.readReg d = s.readReg d + v ∧ SameRegsBut d s t ∧
      t.pc = s.pc + 1 ∧ t.z = s.z ∧ t.status = .running ∧
      t.log = s.log ++ [⟨.trace, 1, s.readReg d, v, s.readReg d + v⟩] ∧
      SameControl s t ∧ SameMemory s t)

/-- 41_alu R164: what SUB does, and its frame. -/
def Obligations.SubResult : Prop :=
  ∀ (N : Nat) (d r : Reg) (s : CoreState N), s.status = .running →
    ∃ t : CoreState N, exec (.sub d r) ⟨N, s⟩ = .next ⟨N, t⟩ ∧
      t.readReg d = s.readReg d - s.readReg r ∧ SameRegsBut d s t ∧
      (t.z = true ↔ s.readReg d - s.readReg r = 0) ∧
      t.pc = s.pc + 1 ∧ t.status = .running ∧
      (t.log = s.log ∨ ∃ a b c, t.log = s.log ++ [⟨.trace, 2, a, b, c⟩]) ∧
      SameControl s t ∧ SameMemory s t

/-- 41_alu R165: what both forms of CMP do, and their frame. -/
def Obligations.CmpResult : Prop :=
  (∀ (N : Nat) (a r : Reg) (s : CoreState N), s.status = .running →
    ∃ t : CoreState N, exec (.cmpReg a r) ⟨N, s⟩ = .next ⟨N, t⟩ ∧
      (t.z = true ↔ s.readReg a = s.readReg r) ∧ SameRegs s t ∧
      t.pc = s.pc + 1 ∧ t.status = .running ∧
      t.log = s.log ++ [⟨.trace, 3, s.readReg a, s.readReg r, if t.z then 1 else 0⟩] ∧
      SameControl s t ∧ SameMemory s t) ∧
  (∀ (N : Nat) (a : Reg) (v : Word N) (s : CoreState N), s.status = .running →
    ∃ t : CoreState N, exec (.cmpImm a v.toNat) ⟨N, s⟩ = .next ⟨N, t⟩ ∧
      (t.z = true ↔ s.readReg a = v) ∧ SameRegs s t ∧
      t.pc = s.pc + 1 ∧ t.status = .running ∧
      t.log = s.log ++ [⟨.trace, 3, s.readReg a, v, if t.z then 1 else 0⟩] ∧
      SameControl s t ∧ SameMemory s t)

/-- 41_alu R160: addition and subtraction are modulo 2^N, and their signed result is the integer one exactly
when that lies in [-2^(N-1), 2^(N-1) - 1]. -/
def Obligations.ArithmeticWraps : Prop :=
  (∀ (N : Nat) (d r : Reg) (s : CoreState N), 12 ≤ N →
    ∃ t : CoreState N, exec (.addReg d r) ⟨N, s⟩ = .next ⟨N, t⟩ ∧
      (t.readReg d).toNat = ((s.readReg d).toNat + (s.readReg r).toNat) % 2 ^ N ∧
      ((t.readReg d).toInt = (s.readReg d).toInt + (s.readReg r).toInt ↔
        -2 ^ (N - 1) ≤ (s.readReg d).toInt + (s.readReg r).toInt ∧
          (s.readReg d).toInt + (s.readReg r).toInt ≤ 2 ^ (N - 1) - 1)) ∧
  (∀ (N : Nat) (d : Reg) (v : Word N) (s : CoreState N), 12 ≤ N →
    ∃ t : CoreState N, exec (.addImm d v.toNat) ⟨N, s⟩ = .next ⟨N, t⟩ ∧
      (t.readReg d).toNat = ((s.readReg d).toNat + v.toNat) % 2 ^ N ∧
      ((t.readReg d).toInt = (s.readReg d).toInt + v.toInt ↔
        -2 ^ (N - 1) ≤ (s.readReg d).toInt + v.toInt ∧
          (s.readReg d).toInt + v.toInt ≤ 2 ^ (N - 1) - 1)) ∧
  (∀ (N : Nat) (d r : Reg) (s : CoreState N), 12 ≤ N →
    ∃ t : CoreState N, exec (.sub d r) ⟨N, s⟩ = .next ⟨N, t⟩ ∧
      (t.readReg d).toNat = ((s.readReg d).toNat + (2 ^ N - (s.readReg r).toNat)) % 2 ^ N ∧
      ((t.readReg d).toInt = (s.readReg d).toInt - (s.readReg r).toInt ↔
        -2 ^ (N - 1) ≤ (s.readReg d).toInt - (s.readReg r).toInt ∧
          (s.readReg d).toInt - (s.readReg r).toInt ≤ 2 ^ (N - 1) - 1))

/-- 41_alu R166: SUB and CMP are the only writers of Z, JZ is its only reader, and a reset clears it. -/
def Obligations.ZeroFlagWritersAndReader : Prop :=
  (∀ (N : Nat) (d r : Reg) (s : CoreState N), ∃ t : CoreState N, exec (.sub d r) ⟨N, s⟩ = .next ⟨N, t⟩ ∧
    (t.z = true ↔ s.readReg d - s.readReg r = 0)) ∧
  (∀ (N : Nat) (a r : Reg) (s : CoreState N), ∃ t : CoreState N, exec (.cmpReg a r) ⟨N, s⟩ = .next ⟨N, t⟩ ∧
    (t.z = true ↔ s.readReg a = s.readReg r)) ∧
  (∀ (N : Nat) (a : Reg) (v : Word N) (s : CoreState N),
    ∃ t : CoreState N, exec (.cmpImm a v.toNat) ⟨N, s⟩ = .next ⟨N, t⟩ ∧ (t.z = true ↔ s.readReg a = v)) ∧
  (∀ (N : Nat) (s : CoreState N), (∀ d r, nextInstr s ≠ some (.sub d r)) →
    (∀ a r, nextInstr s ≠ some (.cmpReg a r)) → (∀ a v, nextInstr s ≠ some (.cmpImm a v)) →
    ∃ t : CoreState N, step ⟨N, s⟩ = .next ⟨N, t⟩ ∧ t.z = s.z) ∧
  (∀ (N : Nat) (i : Instr) (s : CoreState N) (b : Bool), (∀ x, i ≠ .jz x) →
    ∃ (t : CoreState N) (z : Bool), exec i ⟨N, s⟩ = .next ⟨N, t⟩ ∧
      exec i ⟨N, { s with z := b }⟩ = .next ⟨N, { t with z := z }⟩) ∧
  (∀ (N : Nat) (x : Word N) (s : CoreState N), s.status = .running →
    ∃ t : CoreState N, exec (.jz x.toNat) ⟨N, s⟩ = .next ⟨N, t⟩ ∧ t.pc = if s.z then x else s.pc + 1) ∧
  (∀ (N : Nat) (s : CoreState N), s.resetProcessor.z = false)

/-! ### Branches (42_branch) -/

/-- 42_branch R180: what JMP does, and its frame; the target is any index. -/
def Obligations.JmpResult : Prop :=
  ∀ (N : Nat) (x : Word N) (s : CoreState N), s.status = .running →
    ∃ t : CoreState N, exec (.jmp x.toNat) ⟨N, s⟩ = .next ⟨N, t⟩ ∧
      t.pc = x ∧ t.z = s.z ∧ t.status = .running ∧
      (t.log = s.log ∨ ∃ a b c, t.log = s.log ++ [⟨.trace, 4, a, b, c⟩]) ∧
      SameRegs s t ∧ SameControl s t ∧ SameMemory s t

/-- 42_branch R181: what JZ does, taken and not, and its frame. -/
def Obligations.JzResult : Prop :=
  ∀ (N : Nat) (x : Word N) (s : CoreState N), s.status = .running →
    ∃ t : CoreState N, exec (.jz x.toNat) ⟨N, s⟩ = .next ⟨N, t⟩ ∧
      (s.z = true → t.pc = x) ∧ (s.z = false → t.pc = s.pc + 1) ∧
      t.z = s.z ∧ t.status = .running ∧
      (t.log = s.log ∨ ∃ a b c, t.log = s.log ++ [⟨.trace, 5, a, b, c⟩]) ∧
      SameRegs s t ∧ SameControl s t ∧ SameMemory s t

/-! ### Memory instructions (43_memory_ops) -/

/-- 43_memory_ops R190: what LOAD does at an address in range, and its frame: the register gets the cell's
value, and the cell keeps it and gets a new tick. -/
def Obligations.LoadInRange : Prop :=
  ∀ (N : Nat) (d r : Reg) (s : CoreState N), s.status = .running → (s.readReg r).toNat < 1024 →
    ∃ t : CoreState N, exec (.load d r) ⟨N, s⟩ = .next ⟨N, t⟩ ∧
      t.readReg d = (s.mem.read (s.readReg r).toNat).value ∧ SameRegsBut d s t ∧
      t.mem.read (s.readReg r).toNat = ⟨(s.mem.read (s.readReg r).toNat).value, s.now⟩ ∧
      SameMemoryBut (s.readReg r).toNat s t ∧
      t.pc = s.pc + 1 ∧ t.z = s.z ∧ t.status = .running ∧
      (t.log = s.log ∨ ∃ a b c, t.log = s.log ++ [⟨.trace, 6, a, b, c⟩]) ∧ SameControl s t

/-- 43_memory_ops R191: what both forms of STORE do at an address in range, and their frame. -/
def Obligations.StoreInRange : Prop :=
  (∀ (N : Nat) (r x : Reg) (s : CoreState N), s.status = .running → (s.readReg x).toNat < 1024 →
    ∃ t : CoreState N, exec (.storeReg r x) ⟨N, s⟩ = .next ⟨N, t⟩ ∧
      t.mem.read (s.readReg x).toNat = ⟨s.readReg r, s.now⟩ ∧
      SameMemoryBut (s.readReg x).toNat s t ∧ SameRegs s t ∧
      t.pc = s.pc + 1 ∧ t.z = s.z ∧ t.status = .running ∧
      (t.log = s.log ∨ ∃ a b c, t.log = s.log ++ [⟨.trace, 7, a, b, c⟩]) ∧ SameControl s t) ∧
  (∀ (N : Nat) (r : Reg) (x : Word N) (s : CoreState N), s.status = .running → x.toNat < 1024 →
    ∃ t : CoreState N, exec (.storeAbs r x.toNat) ⟨N, s⟩ = .next ⟨N, t⟩ ∧
      t.mem.read x.toNat = ⟨s.readReg r, s.now⟩ ∧
      SameMemoryBut x.toNat s t ∧ SameRegs s t ∧
      t.pc = s.pc + 1 ∧ t.z = s.z ∧ t.status = .running ∧
      (t.log = s.log ∨ ∃ a b c, t.log = s.log ++ [⟨.trace, 7, a, b, c⟩]) ∧ SameControl s t)

/-- 20_memory R55, 43_memory_ops R193: out of range, LOAD emits one SEGFAULT and continues, STORE is dropped in
silence and continues; neither touches a register or a cell, and neither faults. -/
def Obligations.OutOfRangeAccess : Prop :=
  (∀ (N : Nat) (d r : Reg) (s : CoreState N), s.status = .running → 1024 ≤ (s.readReg r).toNat →
    ∃ t : CoreState N, exec (.load d r) ⟨N, s⟩ = .next ⟨N, t⟩ ∧
      t.log = s.log ++ [⟨.segFault, 6, s.readReg r, 0, 0⟩] ∧ SameRegs s t ∧ SameMemory s t ∧
      t.pc = s.pc + 1 ∧ t.z = s.z ∧ t.status = .running ∧ SameControl s t) ∧
  (∀ (N : Nat) (r x : Reg) (s : CoreState N), s.status = .running → 1024 ≤ (s.readReg x).toNat →
    ∃ t : CoreState N, exec (.storeReg r x) ⟨N, s⟩ = .next ⟨N, t⟩ ∧
      t.log = s.log ∧ SameRegs s t ∧ SameMemory s t ∧
      t.pc = s.pc + 1 ∧ t.z = s.z ∧ t.status = .running ∧ SameControl s t) ∧
  (∀ (N : Nat) (r : Reg) (x : Word N) (s : CoreState N), s.status = .running → 1024 ≤ x.toNat →
    ∃ t : CoreState N, exec (.storeAbs r x.toNat) ⟨N, s⟩ = .next ⟨N, t⟩ ∧
      t.log = s.log ∧ SameRegs s t ∧ SameMemory s t ∧
      t.pc = s.pc + 1 ∧ t.z = s.z ∧ t.status = .running ∧ SameControl s t)

/-- 20_memory R53, 00_scope R8: at every N of at least 12 the unsigned range check is the source's check on the signed
reading. -/
def Obligations.RangeCheckReadings : Prop :=
  ∀ (N : Nat) (a : Word N), 12 ≤ N → (inRange a = true ↔ a.toNat < 1024) ∧
    (inRange a = true ↔ 0 ≤ a.toInt ∧ a.toInt < 1024)

/-- 20_memory R51: a STORE followed by a LOAD of the same cell gives the stored register, all N bits. -/
def Obligations.StoreThenLoad : Prop :=
  (∀ (N : Nat) (r x d y : Reg) (s : CoreState N), (s.readReg x).toNat < 1024 → s.readReg y = s.readReg x →
    ∃ t u : CoreState N, exec (.storeReg r x) ⟨N, s⟩ = .next ⟨N, t⟩ ∧ exec (.load d y) ⟨N, t⟩ = .next ⟨N, u⟩ ∧
      u.readReg d = s.readReg r) ∧
  (∀ (N : Nat) (r d y : Reg) (x : Word N) (s : CoreState N), x.toNat < 1024 → s.readReg y = x →
    ∃ t u : CoreState N, exec (.storeAbs r x.toNat) ⟨N, s⟩ = .next ⟨N, t⟩ ∧
      exec (.load d y) ⟨N, t⟩ = .next ⟨N, u⟩ ∧ u.readReg d = s.readReg r)

/-- 20_memory R54: an instruction changes no cell but the one at its effective address, and that only in range;
only a STORE changes a value; a step that executes no instruction accesses no data memory. -/
def Obligations.OneCellPerStep : Prop :=
  (∀ (N : Nat) (i : Instr) (s : CoreState N), ∃ t : CoreState N, exec i ⟨N, s⟩ = .next ⟨N, t⟩ ∧
    (∀ a, (∀ ea, effectiveAddress i s = some ea → inRange ea = true → a ≠ ea.toNat) →
      t.mem.read a = s.mem.read a) ∧
    (storedValue i s = none → ∀ a, (t.mem.read a).value = (s.mem.read a).value)) ∧
  (∀ (N : Nat) (s : CoreState N), nextInstr s = none →
    ∃ t : CoreState N, step ⟨N, s⟩ = .next ⟨N, t⟩ ∧ t.mem = s.mem)

/-- 40_cycle R139: the data-memory port of a step is the whole of its effect on data memory. -/
def Obligations.PortsExplainMemory : Prop :=
  ∀ (N : Nat) (s : CoreState N), ∃ t : CoreState N, step ⟨N, s⟩ = .next ⟨N, t⟩ ∧
    t.mem = match (stepPorts s).dm with
      | none => s.mem
      | some p => s.mem.serve p

/-! ### Output and system instructions (44_system) -/

/-- 44_system R200: what PRINT does, and its frame. -/
def Obligations.PrintResult : Prop :=
  ∀ (N : Nat) (r : Reg) (s : CoreState N), s.status = .running →
    ∃ t : CoreState N, exec (.print r) ⟨N, s⟩ = .next ⟨N, t⟩ ∧
      t.log = s.log ++ [⟨.output, 9, s.readReg r, 0, 0⟩] ∧
      t.pc = s.pc + 1 ∧ t.z = s.z ∧ t.status = .running ∧
      SameRegs s t ∧ SameControl s t ∧ SameMemory s t

/-- 44_system R202: what HALT does, and its frame; `pc` keeps HALT's own index. -/
def Obligations.HaltResult : Prop :=
  ∀ (N : Nat) (s : CoreState N), ∃ t : CoreState N, exec .halt ⟨N, s⟩ = .next ⟨N, t⟩ ∧
    t.status = .halted ∧ t.pc = s.pc ∧ t.z = s.z ∧
    t.log = s.log ++ [⟨.halt, 8, 0, 0, 0⟩] ∧
    SameRegs s t ∧ SameControl s t ∧ SameMemory s t

/-- 44_system R201: an OUTPUT line is the prefix, a minus sign for a negative value, and the decimal digits of
the signed reading's magnitude. -/
def Obligations.OutputLineSignedDecimal : Prop :=
  ∀ (N : Nat) (e : Event N), e.kind = .output →
    (0 ≤ e.a.toInt → e.line = ">> OUTPUT: " ++ Nat.repr e.a.toNat) ∧
    (e.a.toInt < 0 → e.line = ">> OUTPUT: " ++ "-" ++ Nat.repr (2 ^ N - e.a.toNat))

/-! ### The step (40_cycle) -/

/-- 40_cycle R142: every state has a step; no step faults or refuses; N stays (00_scope R7). -/
def Obligations.StepTotal : Prop := ∀ s : State, ∃ t, step s = .next t ∧ t.width = s.width

/-- 40_cycle R121: a step on HALTED or ERROR changes nothing. -/
def Obligations.TerminalStepChangesNothing : Prop :=
  ∀ (N : Nat) (s : CoreState N), s.ended → step ⟨N, s⟩ = .next ⟨N, s⟩

/-- 00_scope R7: N is a parameter of the machine, which no step and no host move changes. -/
def Obligations.WidthNeverChanges : Prop :=
  ∀ (moves : List Move) (s t : State), runMoves moves s = some t → t.width = s.width

/-- 60_exceptions R215, R223: nothing but a reset (a program load or a power-on) leaves HALTED or ERROR: steps and
the host's other moves change at most data memory, and steps alone change nothing. -/
def Obligations.OnlyResetLeavesTerminal : Prop :=
  ∀ (N : Nat) (moves : List Move) (s t : CoreState N), s.ended →
    (∀ planted, Move.host (.powerOn planted) ∉ moves) →
    (∀ words, Move.host (.loadProgram words) ∉ moves) →
    runMoves moves ⟨N, s⟩ = some ⟨N, t⟩ →
    { t with mem := s.mem } = s ∧ ((∀ m ∈ moves, m = .step) → t = s)

/-- 60_exceptions R211: the fatal path is taken by malformed words alone, so a machine that has not faulted and
whose programs hold only well-formed words, now and at every later program load, never faults, whatever the host
does. -/
def Obligations.WellFormedProgramNeverFaults : Prop :=
  ∀ (N : Nat) (moves : List Move) (s t : CoreState N), (∀ w ∈ s.program, wellFormedWord w = true) → ¬ s.faulted →
    (∀ words, Move.host (.loadProgram words) ∈ moves →
      ∀ w ∈ words, wellFormedWord (BitVec.ofNat (N + 16) w) = true) →
    runMoves moves ⟨N, s⟩ = some ⟨N, t⟩ → ¬ t.faulted

/-- 40_cycle R122: a step on IDLE or RUNNING counts one cycle modulo 2^32, whatever else it does. -/
def Obligations.CycleCounted : Prop :=
  ∀ (N : Nat) (s : CoreState N), s.status = .idle ∨ s.status = .running →
    ∃ t : CoreState N, step ⟨N, s⟩ = .next ⟨N, t⟩ ∧ t.cycleCount.toNat = (s.cycleCount.toNat + 1) % 2 ^ 32

/-- 40_cycle R123: a step treats IDLE as RUNNING, and sets RUNNING when it executes an instruction other than
HALT. -/
def Obligations.IdleStepsAsRunning : Prop :=
  (∀ (N : Nat) (s : CoreState N),
    step ⟨N, { s with status := .idle }⟩ = step ⟨N, { s with status := .running }⟩) ∧
  (∀ (N : Nat) (s : CoreState N) (i : Instr), nextInstr s = some i → i ≠ .halt →
    ∃ t : CoreState N, step ⟨N, s⟩ = .next ⟨N, t⟩ ∧ t.status = .running)

/-- 40_cycle R124: a fetch past the end halts; only `cycleCount` and `status` change. -/
def Obligations.FetchPastEndHalts : Prop :=
  ∀ (N : Nat) (s : CoreState N), s.status = .idle ∨ s.status = .running → s.program.length ≤ s.pc.toNat →
    step ⟨N, s⟩ = .next ⟨N, { s with cycleCount := s.cycleCount + 1, status := .halted }⟩

/-- 40_cycle R138: when the word at `pc` decodes to an instruction, the step is that instruction's meaning on
the state after the phases before it, which this writes out. -/
def Obligations.StepRunsDecoded : Prop :=
  ∀ (N : Nat) (s : CoreState N) (w : InstrWord N) (i : Instr), s.status = .idle ∨ s.status = .running →
    s.program[s.pc.toNat]? = some w → decode w = .ok i →
    step ⟨N, s⟩ = exec i ⟨N,
      { s with
        cycleCount := s.cycleCount + 1
        status := .running
        ir := w
        irValid := true
        temperature := raiseTemperature s.temperature (Config.delta (s.draws + 1))
        draws := s.draws + 1 }⟩

/-- 60_exceptions R212, 40_cycle R134: the fatal path. -/
def Obligations.FatalPath : Prop :=
  ∀ (N : Nat) (s : CoreState N) (w : InstrWord N) (code : Malformed), s.status = .idle ∨ s.status = .running →
    s.program[s.pc.toNat]? = some w → decode w = .error code →
    ∃ t : CoreState N, step ⟨N, s⟩ = .next ⟨N, t⟩ ∧ t.status = .error ∧ t.lastError = some code ∧
      t.pc = s.pc ∧ SameRegs s t ∧ t.z = s.z ∧ t.mem = s.mem ∧
      t.cycleCount = s.cycleCount + 1 ∧ t.ir = w ∧ t.irValid = true ∧
      t.temperature = raiseTemperature s.temperature (Config.delta (s.draws + 1)) ∧
      t.program = s.program ∧
      (t.log = s.log ∨ ∃ a b c, t.log = s.log ++ [⟨.trace, opField w, a, b, c⟩])

/-- 30_encoding R95: the all-zeros word is malformed with code 2, so a zero-filled instruction memory faults at
its first fetch. -/
def Obligations.AllZerosWordFaults : Prop :=
  Malformed.illegalMode.code = 2 ∧
  ∀ N : Nat, decode (0 : InstrWord N) = .error .illegalMode ∧
    ∀ (s : CoreState N) (n : Nat), s.status = .idle ∨ s.status = .running →
      s.program = List.replicate n 0 → s.pc.toNat < n →
      ∃ t : CoreState N, step ⟨N, s⟩ = .next ⟨N, t⟩ ∧ t.status = .error ∧ t.lastError = some .illegalMode

/-- 40_cycle R131: the temperature rises by a draw in [0, TEMP_DELTA_MAX], clamped at 90, on every step that
fetches a word, and on no other step. -/
def Obligations.TemperatureRise : Prop :=
  (∀ (N : Nat) (s : CoreState N) (w : InstrWord N), s.status = .idle ∨ s.status = .running →
    s.program[s.pc.toNat]? = some w →
    ∃ (t : CoreState N) (delta : Rat), step ⟨N, s⟩ = .next ⟨N, t⟩ ∧ 0 ≤ delta ∧ delta ≤ Config.tempDeltaMax ∧
      t.temperature = (if s.temperature + delta ≤ 90 then s.temperature + delta else 90)) ∧
  (∀ (N : Nat) (s : CoreState N), s.status = .halted ∨ s.status = .error ∨ s.program.length ≤ s.pc.toNat →
    ∃ t : CoreState N, step ⟨N, s⟩ = .next ⟨N, t⟩ ∧ t.temperature = s.temperature)

/-- 40_cycle R136, R143, 10_state R28: where `pc` is after a step that executes an instruction; with a loadable
program the sequential advance never wraps. -/
def Obligations.PcAfterStep : Prop :=
  ∀ (N : Nat) (s : CoreState N) (i : Instr), s.program.length ≤ 2 ^ N - 1 → nextInstr s = some i →
    ∃ t : CoreState N, step ⟨N, s⟩ = .next ⟨N, t⟩ ∧
      match i with
      | .halt => t.pc = s.pc
      | .jmp x => t.pc.toNat = x
      | .jz x => if s.z then t.pc.toNat = x else t.pc.toNat = s.pc.toNat + 1
      | _ => t.pc.toNat = s.pc.toNat + 1

/-- 10_state R33, 40_cycle R143: the status after a step from IDLE or RUNNING, never IDLE. -/
def Obligations.StatusAfterStep : Prop :=
  ∀ (N : Nat) (s : CoreState N), s.status = .idle ∨ s.status = .running →
    ∃ t : CoreState N, step ⟨N, s⟩ = .next ⟨N, t⟩ ∧ t.status ≠ .idle ∧
      (t.status = .halted ↔ s.program.length ≤ s.pc.toNat ∨ nextInstr s = some .halt) ∧
      (t.status = .error ↔ ∃ w code, s.program[s.pc.toNat]? = some w ∧ decode w = .error code)

/-- 40_cycle R129: the events of each step, by its table. -/
def Obligations.EventsPerStep : Prop :=
  ∀ (N : Nat) (s : CoreState N), ∃ t : CoreState N, step ⟨N, s⟩ = .next ⟨N, t⟩ ∧
    t.log = s.log ++ (stepPorts s).event.toList

/-- 20_memory R60, R67: no step writes instruction memory. -/
def Obligations.ProgramNeverWritten : Prop :=
  ∀ (N : Nat) (s : CoreState N), ∃ t : CoreState N, step ⟨N, s⟩ = .next ⟨N, t⟩ ∧ t.program = s.program

/-- 10_state R39: two states that differ only in what a program cannot observe step to two such states, with the
same OUTPUT, SEGFAULT and HALT events. -/
def Obligations.HiddenStateUnobservable : Prop :=
  ∀ (N : Nat) (s s' : CoreState N), VisibleEq s s' →
    ∃ t t' : CoreState N, step ⟨N, s⟩ = .next ⟨N, t⟩ ∧ step ⟨N, s'⟩ = .next ⟨N, t'⟩ ∧ VisibleEq t t' ∧
      ∃ new new', t.log = s.log ++ new ∧ t'.log = s'.log ++ new' ∧ reported new = reported new'

/-! ### Reset, the host and the invariant -/

/-- 70_reset_and_hazards R240, 10_state R26: the reset values of ProcessorState, at `rst`, in State.reset, at
power-on and at a program load; `rst` keeps data memory and instruction memory, a program load keeps data memory,
and at power-on no program is loaded. What data memory holds after power-on is PowerOnMemory's. -/
def Obligations.ResetValues : Prop :=
  (∀ (N : Nat) (s : CoreState N),
    (∀ r, s.resetProcessor.readReg r = 0) ∧ s.resetProcessor.status = .idle ∧ s.resetProcessor.pc = 0 ∧
    s.resetProcessor.z = false ∧ s.resetProcessor.cycleCount = 0 ∧ s.resetProcessor.ir = 0 ∧
    s.resetProcessor.irValid = false ∧ s.resetProcessor.lastError = none ∧
    s.resetProcessor.temperature = Config.tempInit ∧
    s.resetProcessor.mem = s.mem ∧ s.resetProcessor.program = s.program) ∧
  (State.reset.width = 16 ∧ State.reset.core.resetProcessor = State.reset.core ∧ State.reset.core.program = []) ∧
  (∀ (N : Nat) (s : CoreState N) (planted : List (Nat × Nat × Tick)), (∀ p ∈ planted, p.1 < 1024 ∧ p.2.1 < 2 ^ N) →
    ∃ t : CoreState N, hostMove (.powerOn planted) ⟨N, s⟩ = some ⟨N, t⟩ ∧ t.resetProcessor = t ∧ t.program = []) ∧
  (∀ (N : Nat) (s : CoreState N) (words : List Nat), words.length ≤ 2 ^ N - 1 → (∀ w ∈ words, w < 2 ^ (N + 16)) →
    ∃ t : CoreState N, hostMove (.loadProgram words) ⟨N, s⟩ = some ⟨N, t⟩ ∧ t.resetProcessor = t ∧
      t.program.map BitVec.toNat = words ∧ t.mem = s.mem)

/-- 20_memory R62, 70_reset_and_hazards R241: after power-on a planted cell holds the planted value and tick, and every
other cell its power-on draw. That the last of two entries for one cell stands is the model's choice (log 14), and that
the draws are the same at every power-on is the model's too (log 6). -/
def Obligations.PowerOnMemory : Prop :=
  ∀ (N : Nat) (s : CoreState N) (planted : List (Nat × Nat × Tick)), (∀ p ∈ planted, p.1 < 1024 ∧ p.2.1 < 2 ^ N) →
    ∃ t : CoreState N, hostMove (.powerOn planted) ⟨N, s⟩ = some ⟨N, t⟩ ∧
      (∀ before a v tick after, planted = before ++ (a, v, tick) :: after → (∀ p ∈ after, p.1 ≠ a) →
        (t.mem.read a).value.toNat = v ∧ (t.mem.read a).tick = tick) ∧
      (∀ a, (∀ p ∈ planted, p.1 ≠ a) → t.mem.read a = Memory.powerOnCell N a)

/-- The invariant holds at reset, at every N the spec allows. -/
def Obligations.ResetInv : Prop :=
  State.reset.Inv ∧ ∀ N : Nat, 12 ≤ N → State.Inv ⟨N, CoreState.reset N⟩

/-- Every step keeps the invariant (20_memory R50, 10_state R34, R37, 60_exceptions R213). -/
def Obligations.StepKeepsInv : Prop :=
  ∀ s t : State, s.Inv → step s = .next t → t.Inv

/-- Every host move keeps the invariant (40_cycle R141). -/
def Obligations.HostMoveKeepsInv : Prop :=
  ∀ (m : HostMove) (s t : State), s.Inv → hostMove m s = some t → t.Inv

/-- 10_state R34: `lastError` is 0 whenever `status` is not ERROR, and the fault's code when it is. -/
def Obligations.LastErrorCode : Prop :=
  ∀ (N : Nat) (s : CoreState N), s.Inv →
    (s.status ≠ .error → s.observe.lastError = 0) ∧
    (s.status = .error → ∃ code, decode s.ir = .error code ∧ s.observe.lastError = code.code ∧
      s.observe.lastError ≠ 0)

/-- 20_memory R64: after any sequence of steps and host moves without a power-on, a cell holds the value of the
latest STORE or host write to it, or the value it had before; and a LOAD returns it. -/
def Obligations.LoadReturnsLatestWrite : Prop :=
  ∀ (N : Nat) (moves : List Move) (s t : CoreState N), (∀ planted, Move.host (.powerOn planted) ∉ moves) →
    runMoves moves ⟨N, s⟩ = some ⟨N, t⟩ →
    (∀ a, (t.mem.read a).value.toNat = (latestWrite moves ⟨N, s⟩ a).getD (s.mem.read a).value.toNat) ∧
    (∀ d r, nextInstr t = some (.load d r) → (t.readReg r).toNat < 1024 →
      ∃ u : CoreState N, step ⟨N, t⟩ = .next ⟨N, u⟩ ∧
        (u.readReg d).toNat = (latestWrite moves ⟨N, s⟩ (t.readReg r).toNat).getD
          (s.mem.read (t.readReg r).toNat).value.toNat)

/-- 10_state R33: the host's write of IDLE or RUNNING changes what no step does, is ignored on a terminal
status, and HALTED and ERROR are never written. -/
def Obligations.HostStatusWrite : Prop :=
  ∀ (N : Nat) (s : CoreState N),
    (∀ st, st = .idle ∨ st = .running →
      (s.status = .idle ∨ s.status = .running →
        hostMove (.setStatus st) ⟨N, s⟩ = some ⟨N, { s with status := st }⟩ ∧
          step ⟨N, { s with status := st }⟩ = step ⟨N, s⟩) ∧
      (s.status = .halted ∨ s.status = .error → hostMove (.setStatus st) ⟨N, s⟩ = some ⟨N, s⟩)) ∧
    hostMove (.setStatus .halted) ⟨N, s⟩ = none ∧ hostMove (.setStatus .error) ⟨N, s⟩ = none

/-- 20_memory R63: the ambient write sets one cell's value and tick and nothing else. -/
def Obligations.HostCellWrite : Prop :=
  ∀ (N : Nat) (a : Nat) (v : Word N) (tick : Tick) (s : CoreState N), a < 1024 →
    ∃ t : CoreState N, hostMove (.writeCell a v.toNat tick) ⟨N, s⟩ = some ⟨N, t⟩ ∧ t.mem.read a = ⟨v, tick⟩ ∧
      SameMemoryBut a s t ∧ { t with mem := s.mem } = s

/-! ### The assembler (30_encoding sections 5 and 6) -/

/-- 30_encoding R100: the legacy mapping, row by row. -/
def Obligations.LegacyMapping : Prop :=
  (∀ (N : Nat) (id text : String) (k o : Int), 12 ≤ N → 0 ≤ k → k ≤ 7 →
    (-2 ^ (N - 1) ≤ o → o ≤ 2 ^ (N - 1) - 1 →
      legacyWord N ⟨id, .mov, [k, o], text⟩ =
        .ok (wordOfFields .mov true (BitVec.ofInt 3 k) (BitVec.ofInt N o))) ∧
    (0 ≤ o → o ≤ 7 →
      legacyWord N ⟨id, .add, [k, o], text⟩ =
        .ok (wordOfFields .add false (BitVec.ofInt 3 k) (BitVec.ofInt N o))) ∧
    (-2 ^ (N - 1) ≤ o → o ≤ 2 ^ (N - 1) - 1 → o < 0 ∨ 7 < o →
      legacyWord N ⟨id, .add, [k, o], text⟩ =
        .ok (wordOfFields .add true (BitVec.ofInt 3 k) (BitVec.ofInt N o))) ∧
    (0 ≤ o → o ≤ 7 →
      legacyWord N ⟨id, .sub, [k, o], text⟩ =
        .ok (wordOfFields .sub false (BitVec.ofInt 3 k) (BitVec.ofInt N o))) ∧
    (0 ≤ o → o ≤ 7 →
      legacyWord N ⟨id, .cmp, [k, o], text⟩ =
        .ok (wordOfFields .cmp false (BitVec.ofInt 3 k) (BitVec.ofInt N o))) ∧
    (7 < o → o ≤ 2 ^ (N - 1) - 1 →
      legacyWord N ⟨id, .cmp, [k, o], text⟩ =
        .ok (wordOfFields .cmp true (BitVec.ofInt 3 k) (BitVec.ofInt N o))) ∧
    (0 ≤ o → o ≤ 7 →
      legacyWord N ⟨id, .load, [k, o], text⟩ =
        .ok (wordOfFields .load false (BitVec.ofInt 3 k) (BitVec.ofInt N o))) ∧
    (0 ≤ o → o ≤ 7 →
      legacyWord N ⟨id, .store, [k, o], text⟩ =
        .ok (wordOfFields .store false (BitVec.ofInt 3 k) (BitVec.ofInt N o))) ∧
    (8 ≤ o → o ≤ 2 ^ N - 1 →
      legacyWord N ⟨id, .store, [k, o], text⟩ =
        .ok (wordOfFields .store true (BitVec.ofInt 3 k) (BitVec.ofInt N o))) ∧
    legacyWord N ⟨id, .print, [k], text⟩ = .ok (wordOfFields .print false (BitVec.ofInt 3 k) 0)) ∧
  (∀ (N : Nat) (id text : String) (x : Int), 0 ≤ x → x ≤ 2 ^ N - 1 →
    legacyWord N ⟨id, .jmp, [x], text⟩ = .ok (wordOfFields .jmp true 0 (BitVec.ofInt N x)) ∧
    legacyWord N ⟨id, .jz, [x], text⟩ = .ok (wordOfFields .jz true 0 (BitVec.ofInt N x))) ∧
  (∀ (N : Nat) (id text : String), legacyWord N ⟨id, .halt, [], text⟩ = .ok (wordOfFields .halt false 0 0))

/-- 30_encoding R101: what the assembler refuses, and that a program with a refused instruction has no words. -/
def Obligations.LegacyRefusals : Prop :=
  (∀ (N : Nat) (l : LegacyInstr),
    ((l.operation = .mov ∨ l.operation = .add ∨ l.operation = .sub ∨ l.operation = .cmp ∨
        l.operation = .load ∨ l.operation = .store) ∧ l.args.length ≠ 2) ∨
      ((l.operation = .jmp ∨ l.operation = .jz ∨ l.operation = .print) ∧ l.args.length ≠ 1) ∨
      (l.operation = .halt ∧ l.args.length ≠ 0) →
    ∃ e, legacyWord N l = .error e) ∧
  (∀ (N : Nat) (id text : String) (k o : Int), k < 0 ∨ 7 < k →
    (∀ op, op = .mov ∨ op = .add ∨ op = .sub ∨ op = .cmp ∨ op = .load ∨ op = .store →
      ∃ e, legacyWord N ⟨id, op, [k, o], text⟩ = .error e) ∧
    (∃ e, legacyWord N ⟨id, .sub, [o, k], text⟩ = .error e) ∧
    (∃ e, legacyWord N ⟨id, .load, [o, k], text⟩ = .error e) ∧
    (∃ e, legacyWord N ⟨id, .print, [k], text⟩ = .error e)) ∧
  (∀ (N : Nat) (id text : String) (k o : Int), 12 ≤ N →
    (o < 0 → ∃ e, legacyWord N ⟨id, .cmp, [k, o], text⟩ = .error e) ∧
    (o < 0 → ∃ e, legacyWord N ⟨id, .store, [k, o], text⟩ = .error e) ∧
    (2 ^ N - 1 < o → ∃ e, legacyWord N ⟨id, .store, [k, o], text⟩ = .error e) ∧
    (o < 0 ∨ 2 ^ N - 1 < o →
      (∃ e, legacyWord N ⟨id, .jmp, [o], text⟩ = .error e) ∧ ∃ e, legacyWord N ⟨id, .jz, [o], text⟩ = .error e) ∧
    (o < -2 ^ (N - 1) ∨ 2 ^ (N - 1) - 1 < o →
      (∃ e, legacyWord N ⟨id, .mov, [k, o], text⟩ = .error e) ∧
        (∃ e, legacyWord N ⟨id, .add, [k, o], text⟩ = .error e) ∧
        ∃ e, legacyWord N ⟨id, .cmp, [k, o], text⟩ = .error e)) ∧
  (∀ (N : Nat) (ls : List LegacyInstr) (l : LegacyInstr) (e : AsmRefusal), l ∈ ls → legacyWord N l = .error e →
    ∃ e', legacyProgram N ls = .error e')

/-- Every word the assembler makes of a legacy instruction decodes to an instruction of the same operation, so
a program of legacy instructions never takes the fatal path (30_encoding R99, R100). -/
def Obligations.LegacyWordsDecode : Prop :=
  ∀ (N : Nat) (l : LegacyInstr) (w : InstrWord N), 12 ≤ N → legacyWord N l = .ok w →
    ∃ i, decode w = .ok i ∧ opCodeOfInstr i = l.operation

/-- 30_encoding R97, R102: the tagged forms, the small immediates and low addresses among them. -/
def Obligations.TaggedForms : Prop :=
  (∀ (N : Nat) (d s : Reg),
    assembleInstr N .add [.reg d, .reg s] = .ok (.addReg d s) ∧
    assembleInstr N .sub [.reg d, .reg s] = .ok (.sub d s) ∧
    assembleInstr N .cmp [.reg d, .reg s] = .ok (.cmpReg d s) ∧
    assembleInstr N .load [.reg d, .reg s] = .ok (.load d s) ∧
    assembleInstr N .store [.reg d, .reg s] = .ok (.storeReg d s) ∧
    assembleInstr N .print [.reg d] = .ok (.print d) ∧ assembleInstr N .halt [] = .ok .halt) ∧
  (∀ (N : Nat) (d : Reg) (v : Int), -2 ^ (N - 1) ≤ v → v ≤ 2 ^ (N - 1) - 1 →
    assembleInstr N .mov [.reg d, .imm v] = .ok (.mov d (BitVec.ofInt N v).toNat) ∧
    assembleInstr N .add [.reg d, .imm v] = .ok (.addImm d (BitVec.ofInt N v).toNat) ∧
    assembleInstr N .cmp [.reg d, .imm v] = .ok (.cmpImm d (BitVec.ofInt N v).toNat)) ∧
  (∀ (N : Nat) (d : Reg) (x : Int), 0 ≤ x → x ≤ 2 ^ N - 1 →
    assembleInstr N .store [.reg d, .imm x] = .ok (.storeAbs d x.toNat) ∧
    assembleInstr N .jmp [.bare x] = .ok (.jmp x.toNat) ∧
    assembleInstr N .jz [.bare x] = .ok (.jz x.toNat))
end

