-- ==== Sys2Proof/Laws/Config.lean ====
section
/-! SUPPORT. The bounds the spec sets on its OPEN parameters and draws hold whatever the free values are. -/

namespace Sys2Proof

/-- TEMP_DELTA_MAX is above 0 (00_scope R7). -/
theorem Config.tempDeltaMax_pos : 0 < Config.tempDeltaMax := by
  unfold Config.tempDeltaMax
  split
  · assumption
  · decide

/-- The draw `delta` is in [0, TEMP_DELTA_MAX] (40_cycle R120). -/
theorem Config.delta_bounds (n : Nat) : 0 ≤ Config.delta n ∧ Config.delta n ≤ Config.tempDeltaMax := by
  have hpos := Config.tempDeltaMax_pos
  unfold Config.delta
  split
  · exact ⟨Rat.le_refl, Rat.le_of_lt hpos⟩
  · rename_i h
    split
    · exact ⟨Rat.le_of_lt hpos, Rat.le_refl⟩
    · rename_i h'
      exact ⟨Rat.not_lt.mp h, Rat.not_lt.mp h'⟩

/-- TEMP_INIT is in [35, 90] (00_scope R7). -/
theorem Config.tempInit_bounds : Config.tempMin ≤ Config.tempInit ∧ Config.tempInit ≤ Config.tempMax := by
  have h35 : Config.tempMin ≤ Config.tempMax := by decide
  unfold Config.tempInit
  split
  · exact ⟨Rat.le_refl, h35⟩
  · rename_i h
    split
    · exact ⟨h35, Rat.le_refl⟩
    · rename_i h'
      exact ⟨Rat.not_lt.mp h, Rat.not_lt.mp h'⟩

end Sys2Proof
end

