-- ==== Sys2Proof/Laws/Decode.lean ====
section
/-! SUPPORT. The laws of the encoding: each field of an assembled word, a word from its fields, and the opcode
numbers. -/

namespace Sys2Proof

variable {N : Nat}

/-- The bits of a word of given fields (30_encoding R81). -/
theorem getLsbD_wordOfParts (op : BitVec 4) (m : Bool) (a : BitVec 3) (rsv : BitVec 8) (b : Word N) (i : Nat) :
    (wordOfParts op m a rsv b).getLsbD i =
      if i < N then b.getLsbD i
      else if i < N + 8 then rsv.getLsbD (i - N)
      else if i < N + 11 then a.getLsbD (i - (N + 8))
      else if i < N + 12 then m
      else op.getLsbD (i - (N + 12)) := by
  simp only [wordOfParts, BitVec.getLsbD_cast, BitVec.getLsbD_append, BitVec.getLsbD_ofBool]
  have e1 : i - N - 8 = i - (N + 8) := by omega
  have e2 : i - (N + 8) - 3 = i - (N + 11) := by omega
  have e3 : i - (N + 11) - 1 = i - (N + 12) := by omega
  rw [e1, e2, e3]
  by_cases h1 : i < N
  · simp [h1]
  · by_cases h2 : i < N + 8
    · have l : i - N < 8 := by omega
      simp [h1, h2, l]
    · have l : ¬ (i - N < 8) := by omega
      by_cases h3 : i < N + 11
      · have l' : i - (N + 8) < 3 := by omega
        simp [h1, h2, h3, l, l']
      · have l' : ¬ (i - (N + 8) < 3) := by omega
        by_cases h4 : i < N + 12
        · have e : i - (N + 11) = 0 := by omega
          simp [h1, h2, h3, h4, l, l', e]
        · have l'' : ¬ (i - (N + 11) < 1) := by omega
          simp [h1, h2, h3, h4, l, l', l'']

@[simp] theorem opField_wordOfParts (op : BitVec 4) (m : Bool) (a : BitVec 3) (rsv : BitVec 8) (b : Word N) :
    opField (wordOfParts op m a rsv b) = op := by
  apply BitVec.eq_of_getLsbD_eq
  intro i hi
  have h1 : ¬ (N + 12 + i < N) := by omega
  have h2 : ¬ (N + 12 + i < N + 8) := by omega
  have h3 : ¬ (N + 12 + i < N + 11) := by omega
  have h4 : ¬ (N + 12 + i < N + 12) := by omega
  have e : N + 12 + i - (N + 12) = i := by omega
  simp only [opField, BitVec.getLsbD_extractLsb', getLsbD_wordOfParts, hi, h1, h2, h3, h4, e, if_false,
    decide_true, Bool.true_and]

@[simp] theorem mField_wordOfParts (op : BitVec 4) (m : Bool) (a : BitVec 3) (rsv : BitVec 8) (b : Word N) :
    mField (wordOfParts op m a rsv b) = m := by
  have h1 : ¬ (N + 11 < N) := by omega
  have h2 : ¬ (N + 11 < N + 8) := by omega
  have h4 : N + 11 < N + 12 := by omega
  rw [mField, getLsbD_wordOfParts, if_neg h1, if_neg h2, if_neg (Nat.lt_irrefl _), if_pos h4]

@[simp] theorem aField_wordOfParts (op : BitVec 4) (m : Bool) (a : BitVec 3) (rsv : BitVec 8) (b : Word N) :
    aField (wordOfParts op m a rsv b) = a := by
  apply BitVec.eq_of_getLsbD_eq
  intro i hi
  have h1 : ¬ (N + 8 + i < N) := by omega
  have h2 : ¬ (N + 8 + i < N + 8) := by omega
  have h3 : N + 8 + i < N + 11 := by omega
  have e : N + 8 + i - (N + 8) = i := by omega
  simp only [aField, BitVec.getLsbD_extractLsb', getLsbD_wordOfParts, hi, h1, h2, h3, e, if_false, if_true,
    decide_true, Bool.true_and]

@[simp] theorem rsvField_wordOfParts (op : BitVec 4) (m : Bool) (a : BitVec 3) (rsv : BitVec 8) (b : Word N) :
    rsvField (wordOfParts op m a rsv b) = rsv := by
  apply BitVec.eq_of_getLsbD_eq
  intro i hi
  have h1 : ¬ (N + i < N) := by omega
  have h2 : N + i < N + 8 := by omega
  have e : N + i - N = i := by omega
  simp only [rsvField, BitVec.getLsbD_extractLsb', getLsbD_wordOfParts, hi, h1, h2, e, if_false, if_true,
    decide_true, Bool.true_and]

@[simp] theorem bField_wordOfParts (op : BitVec 4) (m : Bool) (a : BitVec 3) (rsv : BitVec 8) (b : Word N) :
    bField (wordOfParts op m a rsv b) = b := by
  apply BitVec.eq_of_getLsbD_eq
  intro i hi
  simp [bField, getLsbD_wordOfParts, hi]

@[simp] theorem opField_wordOfFields (op : OpCode) (m : Bool) (a : BitVec 3) (b : Word N) :
    opField (wordOfFields op m a b) = op.number := opField_wordOfParts _ _ _ _ _

@[simp] theorem mField_wordOfFields (op : OpCode) (m : Bool) (a : BitVec 3) (b : Word N) :
    mField (wordOfFields op m a b) = m := mField_wordOfParts _ _ _ _ _

@[simp] theorem aField_wordOfFields (op : OpCode) (m : Bool) (a : BitVec 3) (b : Word N) :
    aField (wordOfFields op m a b) = a := aField_wordOfParts _ _ _ _ _

@[simp] theorem rsvField_wordOfFields (op : OpCode) (m : Bool) (a : BitVec 3) (b : Word N) :
    rsvField (wordOfFields op m a b) = 0 := rsvField_wordOfParts _ _ _ _ _

@[simp] theorem bField_wordOfFields (op : OpCode) (m : Bool) (a : BitVec 3) (b : Word N) :
    bField (wordOfFields op m a b) = b := bField_wordOfParts _ _ _ _ _

/-- A word is the word of its fields (30_encoding R81). -/
theorem word_of_its_fields (w : InstrWord N) :
    w = wordOfParts (opField w) (mField w) (aField w) (rsvField w) (bField w) := by
  apply BitVec.eq_of_getLsbD_eq
  intro i hi
  simp only [getLsbD_wordOfParts, opField, mField, aField, rsvField, bField, BitVec.getLsbD_extractLsb']
  by_cases h1 : i < N
  · simp [h1]
  · by_cases h2 : i < N + 8
    · have e : N + (i - N) = i := by omega
      have l : i - N < 8 := by omega
      simp [h1, h2, l, e]
    · by_cases h3 : i < N + 11
      · have e : N + 8 + (i - (N + 8)) = i := by omega
        have l : i - (N + 8) < 3 := by omega
        simp [h1, h2, h3, l, e]
      · by_cases h4 : i < N + 12
        · have e : N + 11 = i := by omega
          simp [h1, h2, h4, e]
        · have e : N + 12 + (i - (N + 12)) = i := by omega
          have l : i - (N + 12) < 4 := by omega
          simp [h1, h2, h3, h4, l, e]

/-- Two words are equal when their fields are. -/
theorem word_eq_iff_fields (w v : InstrWord N) :
    w = v ↔ opField w = opField v ∧ mField w = mField v ∧ aField w = aField v ∧
      rsvField w = rsvField v ∧ bField w = bField v := by
  constructor
  · intro h
    subst h
    exact ⟨rfl, rfl, rfl, rfl, rfl⟩
  · rintro ⟨h1, h2, h3, h4, h5⟩
    rw [word_of_its_fields w, word_of_its_fields v, h1, h2, h3, h4, h5]

@[simp] theorem opField_and (w v : InstrWord N) : opField (w &&& v) = opField w &&& opField v :=
  BitVec.extractLsb'_and

@[simp] theorem mField_and (w v : InstrWord N) : mField (w &&& v) = (mField w && mField v) :=
  BitVec.getLsbD_and

@[simp] theorem aField_and (w v : InstrWord N) : aField (w &&& v) = aField w &&& aField v :=
  BitVec.extractLsb'_and

@[simp] theorem rsvField_and (w v : InstrWord N) : rsvField (w &&& v) = rsvField w &&& rsvField v :=
  BitVec.extractLsb'_and

@[simp] theorem bField_and (w v : InstrWord N) : bField (w &&& v) = bField w &&& bField v :=
  BitVec.extractLsb'_and

/-- A word is of a row exactly when each of its fields is (30_encoding R103). -/
theorem TableRow.covers_iff (r : TableRow N) (w : InstrWord N) : r.covers w = true ↔
    opField w &&& opField r.mask = opField r.pattern ∧ (mField w && mField r.mask) = mField r.pattern ∧
      aField w &&& aField r.mask = aField r.pattern ∧ rsvField w &&& rsvField r.mask = rsvField r.pattern ∧
      bField w &&& bField r.mask = bField r.pattern := by
  simp [TableRow.covers, word_eq_iff_fields]

/-- The bits of `B[N-1:3]` are those of B from bit 3 up. -/
theorem bHigh_eq_zero_iff (b : Word N) : bHigh b = 0 ↔ ∀ i, 3 ≤ i → b.getLsbD i = false := by
  constructor
  · intro h i hi
    by_cases l : i < N
    · have e := congrArg (fun x => x.getLsbD (i - 3)) h
      have l' : i - 3 < N - 3 := by omega
      have e' : 3 + (i - 3) = i := by omega
      simpa [bHigh, l', e'] using e
    · exact BitVec.getLsbD_of_ge b i (by omega)
  · intro h
    apply BitVec.eq_of_getLsbD_eq
    intro i hi
    simp [bHigh, h (3 + i) (by omega)]

/-- The mask of `B[N-1:3]` picks it (30_encoding R103). -/
theorem and_bHigh_mask (b : Word N) : b &&& bMask N .register = 0 ↔ bHigh b = 0 := by
  rw [bHigh_eq_zero_iff]
  constructor
  · intro h i hi
    by_cases l : i < N
    · have e := congrArg (fun x => x.getLsbD i) h
      have l' : i - 3 < N := by omega
      have l'' : ¬ i < 3 := by omega
      simpa [bMask, l, l', l''] using e
    · exact BitVec.getLsbD_of_ge b i (by omega)
  · intro h
    apply BitVec.eq_of_getLsbD_eq
    intro i hi
    by_cases l : i < 3
    · simp [bMask, l]
    · simp [h i (by omega)]

/-- A B field with `B[N-1:3]` zero is the index in `B[2:0]` (30_encoding R83). -/
theorem setWidth_bLow {b : Word N} (h : bHigh b = 0) : (bLow b).setWidth N = b := by
  rw [bHigh_eq_zero_iff] at h
  apply BitVec.eq_of_getLsbD_eq
  intro i hi
  by_cases hlt : i < 3
  · simp [bLow, hlt, hi]
  · simp [bLow, hlt, h i (by omega)]

/-- The index in the B field of a register operand, at a width that holds it. -/
theorem bLow_regAsWord (h : 3 ≤ N) (r : Reg) : bLow (regAsWord N r) = fieldOfReg r := by
  apply BitVec.eq_of_getLsbD_eq
  intro i hi
  have l : i < N := by omega
  simp [bLow, regAsWord, hi, l]

@[simp] theorem bHigh_regAsWord (N : Nat) (r : Reg) : bHigh (regAsWord N r) = 0 := by
  rw [bHigh_eq_zero_iff]
  intro i hi
  simp only [regAsWord, BitVec.getLsbD_setWidth, BitVec.getLsbD_of_ge (fieldOfReg r) i hi, Bool.and_false]

/-- A number that fits in B is the one its field reads as (30_encoding R84, R85). -/
theorem toNat_ofNat_of_lt {v : Nat} (h : v < 2 ^ N) : (BitVec.ofNat N v).toNat = v := by
  rw [BitVec.toNat_ofNat, Nat.mod_eq_of_lt h]

@[simp] theorem regOfField_fieldOfReg (r : Reg) : regOfField (fieldOfReg r) = r := rfl

@[simp] theorem fieldOfReg_regOfField (f : BitVec 3) : fieldOfReg (regOfField f) = f := rfl

@[simp] theorem opCodeOf_number (op : OpCode) : opCodeOf op.number = some op := by
  cases op <;> rfl

/-- An OP field that names an opcode is its number (30_encoding R86). -/
theorem number_of_opCodeOf {f : BitVec 4} {op : OpCode} (h : opCodeOf f = some op) : op.number = f := by
  revert f op
  decide +revert

/-- A word with a legal opcode and RSV 0 is the word of its fields (30_encoding R81, R91). -/
theorem wordOfFields_of_fields {w : InstrWord N} {op : OpCode} (h : opCodeOf (opField w) = some op)
    (hr : rsvField w = 0) : wordOfFields op (mField w) (aField w) (bField w) = w := by
  have e := word_of_its_fields w
  rw [hr, ← number_of_opCodeOf h] at e
  exact e.symm

/-- No opcode is named exactly by the OP values 10 to 15 (30_encoding R90). -/
theorem opCodeOf_eq_none_iff (f : BitVec 4) : opCodeOf f = none ↔ 10 ≤ f.toNat := by
  revert f
  decide

end Sys2Proof
end

