-- ==== Sys2Proof/Laws/Memory.lean ====
section
/-! SUPPORT. The laws of data memory: a read after a write, and the canonical form that every memory operation
keeps. -/

namespace Sys2Proof.Machine

variable {N : Nat}

theorem Memory.lookup_insert_same (a : Nat) (c : Cell N) (l : List (Nat × Cell N)) :
    Memory.lookup a (Memory.insert a c l) = some c := by
  induction l with
  | nil => simp [Memory.insert, Memory.lookup]
  | cons p rest ih =>
    obtain ⟨k, d⟩ := p
    simp only [Memory.insert]
    split
    · simp [Memory.lookup]
    · split
      · simp [Memory.lookup]
      · rename_i h
        simp [Memory.lookup, ih, Ne.symm h]

theorem Memory.lookup_insert_other {a b : Nat} (h : b ≠ a) (c : Cell N) (l : List (Nat × Cell N)) :
    Memory.lookup b (Memory.insert a c l) = Memory.lookup b l := by
  induction l with
  | nil => simp [Memory.insert, Memory.lookup, Ne.symm h]
  | cons p rest ih =>
    obtain ⟨k, d⟩ := p
    simp only [Memory.insert]
    split
    · simp [Memory.lookup, Ne.symm h]
    · split
      · rename_i e
        subst e
        simp [Memory.lookup, Ne.symm h]
      · simp [Memory.lookup, ih]

/-- A read after a write of the same cell gives what was written. -/
@[simp] theorem Memory.read_write_same (m : Memory N) (a : Nat) (c : Cell N) : (m.write a c).read a = c := by
  simp [Memory.read, Memory.write, Memory.lookup_insert_same]

/-- A write leaves every other cell alone. -/
theorem Memory.read_write_other (m : Memory N) {a b : Nat} (h : b ≠ a) (c : Cell N) :
    (m.write a c).read b = m.read b := by
  simp [Memory.read, Memory.write, Memory.lookup_insert_other h]

theorem Memory.read_write (m : Memory N) (a b : Nat) (c : Cell N) :
    (m.write a c).read b = if b = a then c else m.read b := by
  split
  · rename_i h
    subst h
    exact Memory.read_write_same m b c
  · rename_i h
    exact Memory.read_write_other m h c

theorem Memory.key_of_mem_insert {a : Nat} {c : Cell N} {l : List (Nat × Cell N)} {p : Nat × Cell N}
    (h : p ∈ Memory.insert a c l) : p.1 = a ∨ p ∈ l := by
  induction l with
  | nil =>
    simp only [Memory.insert, List.mem_singleton] at h
    exact .inl (by rw [h])
  | cons q rest ih =>
    obtain ⟨k, d⟩ := q
    simp only [Memory.insert] at h
    split at h
    · rcases List.mem_cons.mp h with h | h
      · exact .inl (by rw [h])
      · exact .inr h
    · split at h
      · rcases List.mem_cons.mp h with h | h
        · exact .inl (by rw [h])
        · exact .inr (List.mem_cons_of_mem _ h)
      · rcases List.mem_cons.mp h with h | h
        · exact .inr (by rw [h]; exact List.mem_cons_self)
        · exact (ih h).imp id (List.mem_cons_of_mem _)

theorem Memory.insert_rising (a : Nat) (c : Cell N) {l : List (Nat × Cell N)}
    (h : l.Pairwise (fun p q => p.1 < q.1)) :
    (Memory.insert a c l).Pairwise (fun p q => p.1 < q.1) := by
  induction l with
  | nil => simp [Memory.insert]
  | cons p rest ih =>
    obtain ⟨k, d⟩ := p
    rw [List.pairwise_cons] at h
    simp only [Memory.insert]
    split
    · rename_i hlt
      refine List.pairwise_cons.mpr ⟨fun q hq => ?_, List.pairwise_cons.mpr h⟩
      rcases List.mem_cons.mp hq with hq | hq
      · rw [hq]; exact hlt
      · exact Nat.lt_trans hlt (h.1 q hq)
    · split
      · rename_i e
        subst e
        exact List.pairwise_cons.mpr ⟨h.1, h.2⟩
      · rename_i h1 h2
        refine List.pairwise_cons.mpr ⟨fun q hq => ?_, ih h.2⟩
        rcases Memory.key_of_mem_insert hq with e | hq
        · show k < q.1
          omega
        · exact h.1 q hq

/-- A write inside 0..1023 keeps the canonical form. -/
theorem Memory.write_wf {m : Memory N} {a : Nat} (c : Cell N) (h : m.wf) (ha : a < Config.memSize) :
    (m.write a c).wf := by
  refine ⟨Memory.insert_rising a c h.1, fun p hp => ?_⟩
  rcases Memory.key_of_mem_insert hp with e | hp
  · rw [e]; exact ha
  · exact h.2 p hp

/-- Writing every cell of a list inside 0..1023 keeps the canonical form. -/
theorem Memory.writeAll_wf {l : List (Nat × Cell N)} {m : Memory N} (h : m.wf)
    (hl : ∀ p ∈ l, p.1 < Config.memSize) : (m.writeAll l).wf := by
  induction l generalizing m with
  | nil => exact h
  | cons p rest ih =>
    obtain ⟨a, c⟩ := p
    exact ih (Memory.write_wf c h (hl (a, c) List.mem_cons_self))
      (fun q hq => hl q (List.mem_cons_of_mem _ hq))

/-- Serving an access of the data-memory port keeps the canonical form: a 10-bit index is a cell. -/
theorem Memory.serve_wf {m : Memory N} (p : DmAccess N) (h : m.wf) : (m.serve p).wf :=
  Memory.write_wf _ h p.addr.isLt

/-- The power-on memory, with nothing listed, is in canonical form. -/
theorem Memory.reset_wf (N : Nat) : (CoreState.reset N).mem.wf := ⟨List.Pairwise.nil, fun _ h => by cases h⟩

theorem Memory.lookup_of_lt {a : Nat} {l : List (Nat × Cell N)} (h : ∀ p ∈ l, a < p.1) :
    Memory.lookup a l = none := by
  induction l with
  | nil => rfl
  | cons p rest ih =>
    obtain ⟨k, d⟩ := p
    have hk : a < k := h (k, d) List.mem_cons_self
    have hne : k ≠ a := by omega
    simp only [Memory.lookup, if_neg hne]
    exact ih (fun q hq => h q (List.mem_cons_of_mem _ hq))

/-- Canonical lists that list the same cells are equal. -/
theorem Memory.lookup_ext {l l' : List (Nat × Cell N)} (h : l.Pairwise (fun p q => p.1 < q.1))
    (h' : l'.Pairwise (fun p q => p.1 < q.1)) (e : ∀ a, Memory.lookup a l = Memory.lookup a l') :
    l = l' := by
  induction l generalizing l' with
  | nil =>
    cases l' with
    | nil => rfl
    | cons q rest' =>
      have := e q.1
      simp [Memory.lookup] at this
  | cons p rest ih =>
    cases l' with
    | nil =>
      have := e p.1
      simp [Memory.lookup] at this
    | cons q rest' =>
      obtain ⟨k, c⟩ := p
      obtain ⟨k', c'⟩ := q
      rw [List.pairwise_cons] at h h'
      have hk : k = k' := by
        rcases Nat.lt_trichotomy k k' with hlt | heq | hgt
        · have h1 := e k
          have h2 : Memory.lookup k rest' = none :=
            Memory.lookup_of_lt (fun q hq => Nat.lt_trans hlt (h'.1 q hq))
          have h3 : k' ≠ k := by omega
          simp [Memory.lookup, h2, h3] at h1
        · exact heq
        · have h1 := e k'
          have h2 : Memory.lookup k' rest = none :=
            Memory.lookup_of_lt (fun q hq => Nat.lt_trans hgt (h.1 q hq))
          have h3 : k ≠ k' := by omega
          simp [Memory.lookup, h2, h3] at h1
      subst hk
      have hc : c = c' := by
        have h1 := e k
        simpa [Memory.lookup] using h1
      subst hc
      have hrest : rest = rest' := by
        refine ih h.2 h'.2 (fun a => ?_)
        by_cases ha : k = a
        · subst ha
          rw [Memory.lookup_of_lt h.1, Memory.lookup_of_lt h'.1]
        · simpa [Memory.lookup, ha] using e a
      rw [hrest]

/-- Canonical memories that list the same cells are equal data. -/
theorem Memory.ext_of_wf {m m' : Memory N} (h : m.wf) (h' : m'.wf)
    (e : ∀ a, Memory.lookup a m.cells = Memory.lookup a m'.cells) : m = m' := by
  obtain ⟨l⟩ := m
  obtain ⟨l'⟩ := m'
  exact congrArg Memory.mk (Memory.lookup_ext h.1 h'.1 e)

/-- An address in range is the index of a cell (20_memory R53). -/
theorem lt_of_inRange {a : Word N} (h : inRange a = true) : a.toNat < Config.memSize := of_decide_eq_true h

end Sys2Proof.Machine
end

