-- ==== Sys2Proof/Laws/State.lean ====
section
/-! SUPPORT. One lemma per field per update of CoreState, and of State's one update: what each named
operation leaves in each field. -/

namespace Sys2Proof.Machine

variable {N : Nat}

/-! ### withCore -/

@[simp] theorem State.withCore_width (s : State) (c : CoreState s.width) : (s.withCore c).width = s.width := rfl
@[simp] theorem State.withCore_core (s : State) (c : CoreState s.width) : (s.withCore c).core = c := rfl
@[simp] theorem State.withCore_mk (c d : CoreState N) : (State.mk N c).withCore d = ⟨N, d⟩ := rfl

/-! ### memWrite -/

@[simp] theorem CoreState.memWrite_regs (s : CoreState N) (a : Nat) (v : Word N) : (s.memWrite a v).regs = s.regs := rfl
@[simp] theorem CoreState.memWrite_pc (s : CoreState N) (a : Nat) (v : Word N) : (s.memWrite a v).pc = s.pc := rfl
@[simp] theorem CoreState.memWrite_ir (s : CoreState N) (a : Nat) (v : Word N) : (s.memWrite a v).ir = s.ir := rfl
@[simp] theorem CoreState.memWrite_irValid (s : CoreState N) (a : Nat) (v : Word N) :
    (s.memWrite a v).irValid = s.irValid := rfl
@[simp] theorem CoreState.memWrite_z (s : CoreState N) (a : Nat) (v : Word N) : (s.memWrite a v).z = s.z := rfl
@[simp] theorem CoreState.memWrite_cycleCount (s : CoreState N) (a : Nat) (v : Word N) :
    (s.memWrite a v).cycleCount = s.cycleCount := rfl
@[simp] theorem CoreState.memWrite_temperature (s : CoreState N) (a : Nat) (v : Word N) :
    (s.memWrite a v).temperature = s.temperature := rfl
@[simp] theorem CoreState.memWrite_status (s : CoreState N) (a : Nat) (v : Word N) :
    (s.memWrite a v).status = s.status := rfl
@[simp] theorem CoreState.memWrite_lastError (s : CoreState N) (a : Nat) (v : Word N) :
    (s.memWrite a v).lastError = s.lastError := rfl
@[simp] theorem CoreState.memWrite_mem (s : CoreState N) (a : Nat) (v : Word N) :
    (s.memWrite a v).mem = s.mem.write a ⟨v, (s.mem.read a).tick⟩ := rfl
@[simp] theorem CoreState.memWrite_program (s : CoreState N) (a : Nat) (v : Word N) :
    (s.memWrite a v).program = s.program := rfl
@[simp] theorem CoreState.memWrite_log (s : CoreState N) (a : Nat) (v : Word N) : (s.memWrite a v).log = s.log := rfl
@[simp] theorem CoreState.memWrite_draws (s : CoreState N) (a : Nat) (v : Word N) :
    (s.memWrite a v).draws = s.draws := rfl
@[simp] theorem CoreState.memWrite_readReg (s : CoreState N) (a : Nat) (v : Word N) (i : Reg) :
    (s.memWrite a v).readReg i = s.readReg i := rfl
@[simp] theorem CoreState.memWrite_nextPc (s : CoreState N) (a : Nat) (v : Word N) :
    (s.memWrite a v).nextPc = s.nextPc := rfl
@[simp] theorem CoreState.memWrite_fetch (s : CoreState N) (a : Nat) (v : Word N) :
    (s.memWrite a v).fetch = s.fetch := rfl
@[simp] theorem CoreState.memWrite_now (s : CoreState N) (a : Nat) (v : Word N) : (s.memWrite a v).now = s.now := rfl

/-! ### tickWrite -/

@[simp] theorem CoreState.tickWrite_regs (s : CoreState N) (a : Nat) (k : Tick) : (s.tickWrite a k).regs = s.regs := rfl
@[simp] theorem CoreState.tickWrite_pc (s : CoreState N) (a : Nat) (k : Tick) : (s.tickWrite a k).pc = s.pc := rfl
@[simp] theorem CoreState.tickWrite_ir (s : CoreState N) (a : Nat) (k : Tick) : (s.tickWrite a k).ir = s.ir := rfl
@[simp] theorem CoreState.tickWrite_irValid (s : CoreState N) (a : Nat) (k : Tick) :
    (s.tickWrite a k).irValid = s.irValid := rfl
@[simp] theorem CoreState.tickWrite_z (s : CoreState N) (a : Nat) (k : Tick) : (s.tickWrite a k).z = s.z := rfl
@[simp] theorem CoreState.tickWrite_cycleCount (s : CoreState N) (a : Nat) (k : Tick) :
    (s.tickWrite a k).cycleCount = s.cycleCount := rfl
@[simp] theorem CoreState.tickWrite_temperature (s : CoreState N) (a : Nat) (k : Tick) :
    (s.tickWrite a k).temperature = s.temperature := rfl
@[simp] theorem CoreState.tickWrite_status (s : CoreState N) (a : Nat) (k : Tick) :
    (s.tickWrite a k).status = s.status := rfl
@[simp] theorem CoreState.tickWrite_lastError (s : CoreState N) (a : Nat) (k : Tick) :
    (s.tickWrite a k).lastError = s.lastError := rfl
@[simp] theorem CoreState.tickWrite_mem (s : CoreState N) (a : Nat) (k : Tick) :
    (s.tickWrite a k).mem = s.mem.write a ⟨(s.mem.read a).value, k⟩ := rfl
@[simp] theorem CoreState.tickWrite_program (s : CoreState N) (a : Nat) (k : Tick) :
    (s.tickWrite a k).program = s.program := rfl
@[simp] theorem CoreState.tickWrite_log (s : CoreState N) (a : Nat) (k : Tick) : (s.tickWrite a k).log = s.log := rfl
@[simp] theorem CoreState.tickWrite_draws (s : CoreState N) (a : Nat) (k : Tick) :
    (s.tickWrite a k).draws = s.draws := rfl
@[simp] theorem CoreState.tickWrite_readReg (s : CoreState N) (a : Nat) (k : Tick) (i : Reg) :
    (s.tickWrite a k).readReg i = s.readReg i := rfl
@[simp] theorem CoreState.tickWrite_nextPc (s : CoreState N) (a : Nat) (k : Tick) :
    (s.tickWrite a k).nextPc = s.nextPc := rfl
@[simp] theorem CoreState.tickWrite_fetch (s : CoreState N) (a : Nat) (k : Tick) :
    (s.tickWrite a k).fetch = s.fetch := rfl
@[simp] theorem CoreState.tickWrite_now (s : CoreState N) (a : Nat) (k : Tick) : (s.tickWrite a k).now = s.now := rfl

/-! ### writeReg -/

@[simp] theorem CoreState.writeReg_regs (s : CoreState N) (r : Reg) (v : Word N) :
    (s.writeReg r v).regs = s.regs.set r v := rfl
@[simp] theorem CoreState.writeReg_pc (s : CoreState N) (r : Reg) (v : Word N) : (s.writeReg r v).pc = s.pc := rfl
@[simp] theorem CoreState.writeReg_ir (s : CoreState N) (r : Reg) (v : Word N) : (s.writeReg r v).ir = s.ir := rfl
@[simp] theorem CoreState.writeReg_irValid (s : CoreState N) (r : Reg) (v : Word N) :
    (s.writeReg r v).irValid = s.irValid := rfl
@[simp] theorem CoreState.writeReg_z (s : CoreState N) (r : Reg) (v : Word N) : (s.writeReg r v).z = s.z := rfl
@[simp] theorem CoreState.writeReg_cycleCount (s : CoreState N) (r : Reg) (v : Word N) :
    (s.writeReg r v).cycleCount = s.cycleCount := rfl
@[simp] theorem CoreState.writeReg_temperature (s : CoreState N) (r : Reg) (v : Word N) :
    (s.writeReg r v).temperature = s.temperature := rfl
@[simp] theorem CoreState.writeReg_status (s : CoreState N) (r : Reg) (v : Word N) :
    (s.writeReg r v).status = s.status := rfl
@[simp] theorem CoreState.writeReg_lastError (s : CoreState N) (r : Reg) (v : Word N) :
    (s.writeReg r v).lastError = s.lastError := rfl
@[simp] theorem CoreState.writeReg_mem (s : CoreState N) (r : Reg) (v : Word N) : (s.writeReg r v).mem = s.mem := rfl
@[simp] theorem CoreState.writeReg_program (s : CoreState N) (r : Reg) (v : Word N) :
    (s.writeReg r v).program = s.program := rfl
@[simp] theorem CoreState.writeReg_log (s : CoreState N) (r : Reg) (v : Word N) : (s.writeReg r v).log = s.log := rfl
@[simp] theorem CoreState.writeReg_draws (s : CoreState N) (r : Reg) (v : Word N) :
    (s.writeReg r v).draws = s.draws := rfl
@[simp] theorem CoreState.writeReg_memRead (s : CoreState N) (r : Reg) (v : Word N) (i : Nat) :
    (s.writeReg r v).memRead i = s.memRead i := rfl
@[simp] theorem CoreState.writeReg_nextPc (s : CoreState N) (r : Reg) (v : Word N) :
    (s.writeReg r v).nextPc = s.nextPc := rfl
@[simp] theorem CoreState.writeReg_fetch (s : CoreState N) (r : Reg) (v : Word N) :
    (s.writeReg r v).fetch = s.fetch := rfl
@[simp] theorem CoreState.writeReg_now (s : CoreState N) (r : Reg) (v : Word N) : (s.writeReg r v).now = s.now := rfl

/-! ### setZ -/

@[simp] theorem CoreState.setZ_regs (s : CoreState N) (b : Bool) : (s.setZ b).regs = s.regs := rfl
@[simp] theorem CoreState.setZ_pc (s : CoreState N) (b : Bool) : (s.setZ b).pc = s.pc := rfl
@[simp] theorem CoreState.setZ_ir (s : CoreState N) (b : Bool) : (s.setZ b).ir = s.ir := rfl
@[simp] theorem CoreState.setZ_irValid (s : CoreState N) (b : Bool) : (s.setZ b).irValid = s.irValid := rfl
@[simp] theorem CoreState.setZ_z (s : CoreState N) (b : Bool) : (s.setZ b).z = b := rfl
@[simp] theorem CoreState.setZ_cycleCount (s : CoreState N) (b : Bool) : (s.setZ b).cycleCount = s.cycleCount := rfl
@[simp] theorem CoreState.setZ_temperature (s : CoreState N) (b : Bool) : (s.setZ b).temperature = s.temperature := rfl
@[simp] theorem CoreState.setZ_status (s : CoreState N) (b : Bool) : (s.setZ b).status = s.status := rfl
@[simp] theorem CoreState.setZ_lastError (s : CoreState N) (b : Bool) : (s.setZ b).lastError = s.lastError := rfl
@[simp] theorem CoreState.setZ_mem (s : CoreState N) (b : Bool) : (s.setZ b).mem = s.mem := rfl
@[simp] theorem CoreState.setZ_program (s : CoreState N) (b : Bool) : (s.setZ b).program = s.program := rfl
@[simp] theorem CoreState.setZ_log (s : CoreState N) (b : Bool) : (s.setZ b).log = s.log := rfl
@[simp] theorem CoreState.setZ_draws (s : CoreState N) (b : Bool) : (s.setZ b).draws = s.draws := rfl
@[simp] theorem CoreState.setZ_readReg (s : CoreState N) (b : Bool) (i : Reg) :
    (s.setZ b).readReg i = s.readReg i := rfl
@[simp] theorem CoreState.setZ_memRead (s : CoreState N) (b : Bool) (i : Nat) :
    (s.setZ b).memRead i = s.memRead i := rfl
@[simp] theorem CoreState.setZ_nextPc (s : CoreState N) (b : Bool) : (s.setZ b).nextPc = s.nextPc := rfl
@[simp] theorem CoreState.setZ_fetch (s : CoreState N) (b : Bool) : (s.setZ b).fetch = s.fetch := rfl
@[simp] theorem CoreState.setZ_now (s : CoreState N) (b : Bool) : (s.setZ b).now = s.now := rfl

/-! ### emit -/

@[simp] theorem CoreState.emit_regs (s : CoreState N) (e : Event N) : (s.emit e).regs = s.regs := rfl
@[simp] theorem CoreState.emit_pc (s : CoreState N) (e : Event N) : (s.emit e).pc = s.pc := rfl
@[simp] theorem CoreState.emit_ir (s : CoreState N) (e : Event N) : (s.emit e).ir = s.ir := rfl
@[simp] theorem CoreState.emit_irValid (s : CoreState N) (e : Event N) : (s.emit e).irValid = s.irValid := rfl
@[simp] theorem CoreState.emit_z (s : CoreState N) (e : Event N) : (s.emit e).z = s.z := rfl
@[simp] theorem CoreState.emit_cycleCount (s : CoreState N) (e : Event N) : (s.emit e).cycleCount = s.cycleCount := rfl
@[simp] theorem CoreState.emit_temperature (s : CoreState N) (e : Event N) :
    (s.emit e).temperature = s.temperature := rfl
@[simp] theorem CoreState.emit_status (s : CoreState N) (e : Event N) : (s.emit e).status = s.status := rfl
@[simp] theorem CoreState.emit_lastError (s : CoreState N) (e : Event N) : (s.emit e).lastError = s.lastError := rfl
@[simp] theorem CoreState.emit_mem (s : CoreState N) (e : Event N) : (s.emit e).mem = s.mem := rfl
@[simp] theorem CoreState.emit_program (s : CoreState N) (e : Event N) : (s.emit e).program = s.program := rfl
@[simp] theorem CoreState.emit_log (s : CoreState N) (e : Event N) : (s.emit e).log = s.log ++ [e] := rfl
@[simp] theorem CoreState.emit_draws (s : CoreState N) (e : Event N) : (s.emit e).draws = s.draws := rfl
@[simp] theorem CoreState.emit_readReg (s : CoreState N) (e : Event N) (i : Reg) :
    (s.emit e).readReg i = s.readReg i := rfl
@[simp] theorem CoreState.emit_memRead (s : CoreState N) (e : Event N) (i : Nat) :
    (s.emit e).memRead i = s.memRead i := rfl
@[simp] theorem CoreState.emit_nextPc (s : CoreState N) (e : Event N) : (s.emit e).nextPc = s.nextPc := rfl
@[simp] theorem CoreState.emit_fetch (s : CoreState N) (e : Event N) : (s.emit e).fetch = s.fetch := rfl
@[simp] theorem CoreState.emit_now (s : CoreState N) (e : Event N) : (s.emit e).now = s.now := rfl

/-! ### mayTrace -/

@[simp] theorem CoreState.mayTrace_regs (s : CoreState N) (op : BitVec 4) : (s.mayTrace op).regs = s.regs := rfl
@[simp] theorem CoreState.mayTrace_pc (s : CoreState N) (op : BitVec 4) : (s.mayTrace op).pc = s.pc := rfl
@[simp] theorem CoreState.mayTrace_ir (s : CoreState N) (op : BitVec 4) : (s.mayTrace op).ir = s.ir := rfl
@[simp] theorem CoreState.mayTrace_irValid (s : CoreState N) (op : BitVec 4) :
    (s.mayTrace op).irValid = s.irValid := rfl
@[simp] theorem CoreState.mayTrace_z (s : CoreState N) (op : BitVec 4) : (s.mayTrace op).z = s.z := rfl
@[simp] theorem CoreState.mayTrace_cycleCount (s : CoreState N) (op : BitVec 4) :
    (s.mayTrace op).cycleCount = s.cycleCount := rfl
@[simp] theorem CoreState.mayTrace_temperature (s : CoreState N) (op : BitVec 4) :
    (s.mayTrace op).temperature = s.temperature := rfl
@[simp] theorem CoreState.mayTrace_status (s : CoreState N) (op : BitVec 4) : (s.mayTrace op).status = s.status := rfl
@[simp] theorem CoreState.mayTrace_lastError (s : CoreState N) (op : BitVec 4) :
    (s.mayTrace op).lastError = s.lastError := rfl
@[simp] theorem CoreState.mayTrace_mem (s : CoreState N) (op : BitVec 4) : (s.mayTrace op).mem = s.mem := rfl
@[simp] theorem CoreState.mayTrace_program (s : CoreState N) (op : BitVec 4) :
    (s.mayTrace op).program = s.program := rfl
@[simp] theorem CoreState.mayTrace_log (s : CoreState N) (op : BitVec 4) :
    (s.mayTrace op).log = s.log ++ (optTrace N op s.draws).toList := rfl
@[simp] theorem CoreState.mayTrace_draws (s : CoreState N) (op : BitVec 4) : (s.mayTrace op).draws = s.draws := rfl
@[simp] theorem CoreState.mayTrace_readReg (s : CoreState N) (op : BitVec 4) (i : Reg) :
    (s.mayTrace op).readReg i = s.readReg i := rfl
@[simp] theorem CoreState.mayTrace_memRead (s : CoreState N) (op : BitVec 4) (i : Nat) :
    (s.mayTrace op).memRead i = s.memRead i := rfl
@[simp] theorem CoreState.mayTrace_nextPc (s : CoreState N) (op : BitVec 4) : (s.mayTrace op).nextPc = s.nextPc := rfl
@[simp] theorem CoreState.mayTrace_fetch (s : CoreState N) (op : BitVec 4) : (s.mayTrace op).fetch = s.fetch := rfl
@[simp] theorem CoreState.mayTrace_now (s : CoreState N) (op : BitVec 4) : (s.mayTrace op).now = s.now := rfl

/-! ### advance -/

@[simp] theorem CoreState.advance_regs (s : CoreState N) (npc : Word N) : (s.advance npc).regs = s.regs := rfl
@[simp] theorem CoreState.advance_pc (s : CoreState N) (npc : Word N) :
    (s.advance npc).pc = if s.status = .running then npc else s.pc := rfl
@[simp] theorem CoreState.advance_ir (s : CoreState N) (npc : Word N) : (s.advance npc).ir = s.ir := rfl
@[simp] theorem CoreState.advance_irValid (s : CoreState N) (npc : Word N) : (s.advance npc).irValid = s.irValid := rfl
@[simp] theorem CoreState.advance_z (s : CoreState N) (npc : Word N) : (s.advance npc).z = s.z := rfl
@[simp] theorem CoreState.advance_cycleCount (s : CoreState N) (npc : Word N) :
    (s.advance npc).cycleCount = s.cycleCount := rfl
@[simp] theorem CoreState.advance_temperature (s : CoreState N) (npc : Word N) :
    (s.advance npc).temperature = s.temperature := rfl
@[simp] theorem CoreState.advance_status (s : CoreState N) (npc : Word N) : (s.advance npc).status = s.status := rfl
@[simp] theorem CoreState.advance_lastError (s : CoreState N) (npc : Word N) :
    (s.advance npc).lastError = s.lastError := rfl
@[simp] theorem CoreState.advance_mem (s : CoreState N) (npc : Word N) : (s.advance npc).mem = s.mem := rfl
@[simp] theorem CoreState.advance_program (s : CoreState N) (npc : Word N) : (s.advance npc).program = s.program := rfl
@[simp] theorem CoreState.advance_log (s : CoreState N) (npc : Word N) : (s.advance npc).log = s.log := rfl
@[simp] theorem CoreState.advance_draws (s : CoreState N) (npc : Word N) : (s.advance npc).draws = s.draws := rfl
@[simp] theorem CoreState.advance_readReg (s : CoreState N) (npc : Word N) (i : Reg) :
    (s.advance npc).readReg i = s.readReg i := rfl
@[simp] theorem CoreState.advance_memRead (s : CoreState N) (npc : Word N) (i : Nat) :
    (s.advance npc).memRead i = s.memRead i := rfl
@[simp] theorem CoreState.advance_now (s : CoreState N) (npc : Word N) : (s.advance npc).now = s.now := rfl

/-! ### setHalted -/

@[simp] theorem CoreState.setHalted_regs (s : CoreState N) : (s.setHalted).regs = s.regs := rfl
@[simp] theorem CoreState.setHalted_pc (s : CoreState N) : (s.setHalted).pc = s.pc := rfl
@[simp] theorem CoreState.setHalted_ir (s : CoreState N) : (s.setHalted).ir = s.ir := rfl
@[simp] theorem CoreState.setHalted_irValid (s : CoreState N) : (s.setHalted).irValid = s.irValid := rfl
@[simp] theorem CoreState.setHalted_z (s : CoreState N) : (s.setHalted).z = s.z := rfl
@[simp] theorem CoreState.setHalted_cycleCount (s : CoreState N) : (s.setHalted).cycleCount = s.cycleCount := rfl
@[simp] theorem CoreState.setHalted_temperature (s : CoreState N) : (s.setHalted).temperature = s.temperature := rfl
@[simp] theorem CoreState.setHalted_status (s : CoreState N) : (s.setHalted).status = .halted := rfl
@[simp] theorem CoreState.setHalted_lastError (s : CoreState N) : (s.setHalted).lastError = s.lastError := rfl
@[simp] theorem CoreState.setHalted_mem (s : CoreState N) : (s.setHalted).mem = s.mem := rfl
@[simp] theorem CoreState.setHalted_program (s : CoreState N) : (s.setHalted).program = s.program := rfl
@[simp] theorem CoreState.setHalted_log (s : CoreState N) : (s.setHalted).log = s.log := rfl
@[simp] theorem CoreState.setHalted_draws (s : CoreState N) : (s.setHalted).draws = s.draws := rfl
@[simp] theorem CoreState.setHalted_readReg (s : CoreState N) (i : Reg) : (s.setHalted).readReg i = s.readReg i := rfl
@[simp] theorem CoreState.setHalted_memRead (s : CoreState N) (i : Nat) : (s.setHalted).memRead i = s.memRead i := rfl
@[simp] theorem CoreState.setHalted_nextPc (s : CoreState N) : (s.setHalted).nextPc = s.nextPc := rfl
@[simp] theorem CoreState.setHalted_fetch (s : CoreState N) : (s.setHalted).fetch = s.fetch := rfl
@[simp] theorem CoreState.setHalted_now (s : CoreState N) : (s.setHalted).now = s.now := rfl

/-! ### countCycle -/

@[simp] theorem CoreState.countCycle_regs (s : CoreState N) : (s.countCycle).regs = s.regs := rfl
@[simp] theorem CoreState.countCycle_pc (s : CoreState N) : (s.countCycle).pc = s.pc := rfl
@[simp] theorem CoreState.countCycle_ir (s : CoreState N) : (s.countCycle).ir = s.ir := rfl
@[simp] theorem CoreState.countCycle_irValid (s : CoreState N) : (s.countCycle).irValid = s.irValid := rfl
@[simp] theorem CoreState.countCycle_z (s : CoreState N) : (s.countCycle).z = s.z := rfl
@[simp] theorem CoreState.countCycle_cycleCount (s : CoreState N) : (s.countCycle).cycleCount = s.cycleCount + 1 := rfl
@[simp] theorem CoreState.countCycle_temperature (s : CoreState N) : (s.countCycle).temperature = s.temperature := rfl
@[simp] theorem CoreState.countCycle_status (s : CoreState N) : (s.countCycle).status = s.status := rfl
@[simp] theorem CoreState.countCycle_lastError (s : CoreState N) : (s.countCycle).lastError = s.lastError := rfl
@[simp] theorem CoreState.countCycle_mem (s : CoreState N) : (s.countCycle).mem = s.mem := rfl
@[simp] theorem CoreState.countCycle_program (s : CoreState N) : (s.countCycle).program = s.program := rfl
@[simp] theorem CoreState.countCycle_log (s : CoreState N) : (s.countCycle).log = s.log := rfl
@[simp] theorem CoreState.countCycle_draws (s : CoreState N) : (s.countCycle).draws = s.draws := rfl
@[simp] theorem CoreState.countCycle_readReg (s : CoreState N) (i : Reg) : (s.countCycle).readReg i = s.readReg i := rfl
@[simp] theorem CoreState.countCycle_memRead (s : CoreState N) (i : Nat) : (s.countCycle).memRead i = s.memRead i := rfl
@[simp] theorem CoreState.countCycle_nextPc (s : CoreState N) : (s.countCycle).nextPc = s.nextPc := rfl
@[simp] theorem CoreState.countCycle_fetch (s : CoreState N) : (s.countCycle).fetch = s.fetch := rfl
@[simp] theorem CoreState.countCycle_now (s : CoreState N) : (s.countCycle).now = s.now := rfl

/-! ### beginInstruction -/

@[simp] theorem CoreState.beginInstruction_regs (s : CoreState N) (w : InstrWord N) :
    (s.beginInstruction w).regs = s.regs := rfl
@[simp] theorem CoreState.beginInstruction_pc (s : CoreState N) (w : InstrWord N) :
    (s.beginInstruction w).pc = s.pc := rfl
@[simp] theorem CoreState.beginInstruction_ir (s : CoreState N) (w : InstrWord N) : (s.beginInstruction w).ir = w := rfl
@[simp] theorem CoreState.beginInstruction_irValid (s : CoreState N) (w : InstrWord N) :
    (s.beginInstruction w).irValid = true := rfl
@[simp] theorem CoreState.beginInstruction_z (s : CoreState N) (w : InstrWord N) : (s.beginInstruction w).z = s.z := rfl
@[simp] theorem CoreState.beginInstruction_cycleCount (s : CoreState N) (w : InstrWord N) :
    (s.beginInstruction w).cycleCount = s.cycleCount := rfl
@[simp] theorem CoreState.beginInstruction_temperature (s : CoreState N) (w : InstrWord N) :
    (s.beginInstruction w).temperature = raiseTemperature s.temperature (Config.delta (s.draws + 1)) := rfl
@[simp] theorem CoreState.beginInstruction_status (s : CoreState N) (w : InstrWord N) :
    (s.beginInstruction w).status = .running := rfl
@[simp] theorem CoreState.beginInstruction_lastError (s : CoreState N) (w : InstrWord N) :
    (s.beginInstruction w).lastError = s.lastError := rfl
@[simp] theorem CoreState.beginInstruction_mem (s : CoreState N) (w : InstrWord N) :
    (s.beginInstruction w).mem = s.mem := rfl
@[simp] theorem CoreState.beginInstruction_program (s : CoreState N) (w : InstrWord N) :
    (s.beginInstruction w).program = s.program := rfl
@[simp] theorem CoreState.beginInstruction_log (s : CoreState N) (w : InstrWord N) :
    (s.beginInstruction w).log = s.log := rfl
@[simp] theorem CoreState.beginInstruction_draws (s : CoreState N) (w : InstrWord N) :
    (s.beginInstruction w).draws = s.draws + 1 := rfl
@[simp] theorem CoreState.beginInstruction_readReg (s : CoreState N) (w : InstrWord N) (i : Reg) :
    (s.beginInstruction w).readReg i = s.readReg i := rfl
@[simp] theorem CoreState.beginInstruction_memRead (s : CoreState N) (w : InstrWord N) (i : Nat) :
    (s.beginInstruction w).memRead i = s.memRead i := rfl
@[simp] theorem CoreState.beginInstruction_nextPc (s : CoreState N) (w : InstrWord N) :
    (s.beginInstruction w).nextPc = s.nextPc := rfl
@[simp] theorem CoreState.beginInstruction_fetch (s : CoreState N) (w : InstrWord N) :
    (s.beginInstruction w).fetch = s.fetch := rfl

/-! ### fatal -/

@[simp] theorem CoreState.fatal_regs (s : CoreState N) (code : Malformed) : (s.fatal code).regs = s.regs := rfl
@[simp] theorem CoreState.fatal_pc (s : CoreState N) (code : Malformed) : (s.fatal code).pc = s.pc := rfl
@[simp] theorem CoreState.fatal_ir (s : CoreState N) (code : Malformed) : (s.fatal code).ir = s.ir := rfl
@[simp] theorem CoreState.fatal_irValid (s : CoreState N) (code : Malformed) : (s.fatal code).irValid = s.irValid := rfl
@[simp] theorem CoreState.fatal_z (s : CoreState N) (code : Malformed) : (s.fatal code).z = s.z := rfl
@[simp] theorem CoreState.fatal_cycleCount (s : CoreState N) (code : Malformed) :
    (s.fatal code).cycleCount = s.cycleCount := rfl
@[simp] theorem CoreState.fatal_temperature (s : CoreState N) (code : Malformed) :
    (s.fatal code).temperature = s.temperature := rfl
@[simp] theorem CoreState.fatal_status (s : CoreState N) (code : Malformed) : (s.fatal code).status = .error := rfl
@[simp] theorem CoreState.fatal_lastError (s : CoreState N) (code : Malformed) :
    (s.fatal code).lastError = some code := rfl
@[simp] theorem CoreState.fatal_mem (s : CoreState N) (code : Malformed) : (s.fatal code).mem = s.mem := rfl
@[simp] theorem CoreState.fatal_program (s : CoreState N) (code : Malformed) : (s.fatal code).program = s.program := rfl
@[simp] theorem CoreState.fatal_log (s : CoreState N) (code : Malformed) :
    (s.fatal code).log = s.log ++ (optTrace N (opField s.ir) s.draws).toList := rfl
@[simp] theorem CoreState.fatal_draws (s : CoreState N) (code : Malformed) : (s.fatal code).draws = s.draws := rfl
@[simp] theorem CoreState.fatal_readReg (s : CoreState N) (code : Malformed) (i : Reg) :
    (s.fatal code).readReg i = s.readReg i := rfl
@[simp] theorem CoreState.fatal_memRead (s : CoreState N) (code : Malformed) (i : Nat) :
    (s.fatal code).memRead i = s.memRead i := rfl
@[simp] theorem CoreState.fatal_nextPc (s : CoreState N) (code : Malformed) : (s.fatal code).nextPc = s.nextPc := rfl
@[simp] theorem CoreState.fatal_fetch (s : CoreState N) (code : Malformed) : (s.fatal code).fetch = s.fetch := rfl
@[simp] theorem CoreState.fatal_now (s : CoreState N) (code : Malformed) : (s.fatal code).now = s.now := rfl

/-! ### resetProcessor -/

@[simp] theorem CoreState.resetProcessor_regs (s : CoreState N) : (s.resetProcessor).regs = Vector.replicate 8 0 := rfl
@[simp] theorem CoreState.resetProcessor_pc (s : CoreState N) : (s.resetProcessor).pc = 0 := rfl
@[simp] theorem CoreState.resetProcessor_ir (s : CoreState N) : (s.resetProcessor).ir = 0 := rfl
@[simp] theorem CoreState.resetProcessor_irValid (s : CoreState N) : (s.resetProcessor).irValid = false := rfl
@[simp] theorem CoreState.resetProcessor_z (s : CoreState N) : (s.resetProcessor).z = false := rfl
@[simp] theorem CoreState.resetProcessor_cycleCount (s : CoreState N) : (s.resetProcessor).cycleCount = 0 := rfl
@[simp] theorem CoreState.resetProcessor_temperature (s : CoreState N) :
    (s.resetProcessor).temperature = Config.tempInit := rfl
@[simp] theorem CoreState.resetProcessor_status (s : CoreState N) : (s.resetProcessor).status = .idle := rfl
@[simp] theorem CoreState.resetProcessor_lastError (s : CoreState N) : (s.resetProcessor).lastError = none := rfl
@[simp] theorem CoreState.resetProcessor_mem (s : CoreState N) : (s.resetProcessor).mem = s.mem := rfl
@[simp] theorem CoreState.resetProcessor_program (s : CoreState N) : (s.resetProcessor).program = s.program := rfl
@[simp] theorem CoreState.resetProcessor_log (s : CoreState N) : (s.resetProcessor).log = s.log := rfl
@[simp] theorem CoreState.resetProcessor_draws (s : CoreState N) : (s.resetProcessor).draws = s.draws := rfl
@[simp] theorem CoreState.resetProcessor_memRead (s : CoreState N) (i : Nat) :
    (s.resetProcessor).memRead i = s.memRead i := rfl
@[simp] theorem CoreState.resetProcessor_now (s : CoreState N) : (s.resetProcessor).now = s.now := rfl

/-! ### Registers read after a register write -/

@[simp] theorem CoreState.readReg_writeReg_same (s : CoreState N) (r : Reg) (v : Word N) :
    (s.writeReg r v).readReg r = v := by
  simp [CoreState.readReg, CoreState.writeReg]

theorem CoreState.readReg_writeReg_other (s : CoreState N) {r i : Reg} (v : Word N) (h : i ≠ r) :
    (s.writeReg r v).readReg i = s.readReg i := by
  have h' : (r : Nat) ≠ (i : Nat) := fun e => h (Fin.ext e.symm)
  simp [CoreState.readReg, CoreState.writeReg, h']

/-- Reading the registers says all of them: two states with the same readings have the same register file. -/
theorem CoreState.regs_ext {s t : CoreState N} (h : ∀ r, s.readReg r = t.readReg r) : s.regs = t.regs := by
  apply Vector.ext
  intro i hi
  exact h ⟨i, hi⟩

/-- Every register reads as 0 after a processor reset (10_state R26). -/
theorem CoreState.resetProcessor_readReg (s : CoreState N) (r : Reg) : s.resetProcessor.readReg r = 0 := by
  simp [CoreState.readReg]

end Sys2Proof.Machine
end

