-- ==== Sys2Proof/Laws/Exec.lean ====
section
/-! SUPPORT. What the shared operations of the meanings do: LOAD and STORE in range and out of range, and the
fields that ADD, CMP, LOAD and STORE never write. -/

namespace Sys2Proof.Machine

variable {N : Nat}

/-- Every instruction answers a next state, of the same width. -/
theorem exec_completes (i : Instr) (s : CoreState N) : ∃ t : CoreState N, exec i ⟨N, s⟩ = .next ⟨N, t⟩ := by
  cases i <;> exact ⟨_, rfl⟩

/-- Next states of one width are the same exactly when their cores are. -/
theorem next_mk_inj {a b : CoreState N} : (.next ⟨N, a⟩ : Result) = .next ⟨N, b⟩ ↔ a = b := by
  constructor
  · intro h
    cases h
    rfl
  · intro h
    rw [h]

/-- A number that is the unsigned reading of a field gives the field back, whatever the operand form. -/
@[simp] theorem immediateOperand_toNat (v : Word N) : immediateOperand N v.toNat = v := by
  simp [immediateOperand]

@[simp] theorem jumpTarget_toNat (v : Word N) : jumpTarget N v.toNat = v := by
  simp [jumpTarget]

@[simp] theorem absoluteAddress_toNat (v : Word N) : absoluteAddress N v.toNat = v := by
  simp [absoluteAddress]

/-- CMP's TRACE carries the flag as 1 or 0 (41_alu R165). -/
theorem flagAsWord_eq (z : Bool) : flagAsWord N z = if z then 1 else 0 := by
  cases z <;> apply BitVec.eq_of_toNat_eq <;> simp [flagAsWord]

theorem loadFrom_inRange (d : Reg) {ea : Word N} (s : CoreState N) (h : inRange ea = true) :
    loadFrom d ea s =
      ((s.writeReg d (s.memRead ea.toNat)).tickWrite ea.toNat s.now).mayTrace OpCode.load.number := by
  simp [loadFrom, h]

theorem loadFrom_outOfRange (d : Reg) {ea : Word N} (s : CoreState N) (h : inRange ea = false) :
    loadFrom d ea s = s.emit (segFaultEvent ea) := by
  simp [loadFrom, h]

theorem storeTo_inRange {ea : Word N} (v : Word N) (s : CoreState N) (h : inRange ea = true) :
    storeTo ea v s =
      ((s.memWrite ea.toNat v).tickWrite ea.toNat s.now).mayTrace OpCode.store.number := by
  simp [storeTo, h]

theorem storeTo_outOfRange {ea : Word N} (v : Word N) (s : CoreState N) (h : inRange ea = false) :
    storeTo ea v s = s := by
  simp [storeTo, h]

/-- What one access leaves of a cell: a TickWrite keeps its value. -/
theorem CoreState.tickWrite_read (s : CoreState N) (a b : Nat) (k : Tick) :
    (s.tickWrite a k).mem.read b = if b = a then ⟨(s.mem.read a).value, k⟩ else s.mem.read b :=
  Memory.read_write s.mem a b _

/-- What one access leaves of a cell: a MemWrite keeps its tick. -/
theorem CoreState.memWrite_read (s : CoreState N) (a b : Nat) (v : Word N) :
    (s.memWrite a v).mem.read b = if b = a then ⟨v, (s.mem.read a).tick⟩ else s.mem.read b :=
  Memory.read_write s.mem a b _

theorem Memory.insert_insert (a : Nat) (c c' : Cell N) (l : List (Nat × Cell N)) :
    Memory.insert a c (Memory.insert a c' l) = Memory.insert a c l := by
  induction l with
  | nil => simp [Memory.insert]
  | cons p rest ih =>
    obtain ⟨k, d⟩ := p
    simp only [Memory.insert]
    split
    · simp [Memory.insert]
    · split
      · simp [Memory.insert]
      · rename_i h1 h2
        simp [Memory.insert, h1, h2, ih]

/-- Of two writes of the same cell, the second stands. -/
@[simp] theorem Memory.write_write (m : Memory N) (a : Nat) (c c' : Cell N) :
    (m.write a c').write a c = m.write a c := by
  simp [Memory.write, Memory.insert_insert]

/-! ### What LOAD and STORE write -/

/-- The cell of LOAD's address keeps its value and gets the tick (43_memory_ops R190). -/
theorem loadFrom_mem (d : Reg) (ea : Word N) (s : CoreState N) :
    (loadFrom d ea s).mem =
      if inRange ea then s.mem.write ea.toNat ⟨(s.mem.read ea.toNat).value, s.now⟩ else s.mem := by
  unfold loadFrom
  split <;> rfl

/-- LOAD's event (43_memory_ops R190). -/
theorem loadFrom_log (d : Reg) (ea : Word N) (s : CoreState N) :
    (loadFrom d ea s).log =
      s.log ++ (if inRange ea then optTrace N OpCode.load.number s.draws else some (segFaultEvent ea)).toList := by
  unfold loadFrom
  split <;> rfl

/-- LOAD's register (43_memory_ops R190). -/
theorem loadFrom_regs (d : Reg) (ea : Word N) (s : CoreState N) :
    (loadFrom d ea s).regs = if inRange ea then s.regs.set d (s.memRead ea.toNat) else s.regs := by
  unfold loadFrom
  split <;> rfl

/-- The cell of STORE's address gets the value and the tick (43_memory_ops R191). -/
theorem storeTo_mem (ea v : Word N) (s : CoreState N) :
    (storeTo ea v s).mem = if inRange ea then s.mem.write ea.toNat ⟨v, s.now⟩ else s.mem := by
  unfold storeTo
  split
  · simp
  · rfl

/-- STORE's event (43_memory_ops R191). -/
theorem storeTo_log (ea v : Word N) (s : CoreState N) :
    (storeTo ea v s).log =
      s.log ++ (if inRange ea then optTrace N OpCode.store.number s.draws else none).toList := by
  unfold storeTo
  split
  · rfl
  · simp

/-! ### What LOAD leaves alone -/

@[simp] theorem loadFrom_pc (d : Reg) (ea : Word N) (s : CoreState N) : (loadFrom d ea s).pc = s.pc := by
  unfold loadFrom
  split <;> rfl

@[simp] theorem loadFrom_ir (d : Reg) (ea : Word N) (s : CoreState N) : (loadFrom d ea s).ir = s.ir := by
  unfold loadFrom
  split <;> rfl

@[simp] theorem loadFrom_irValid (d : Reg) (ea : Word N) (s : CoreState N) : (loadFrom d ea s).irValid = s.irValid := by
  unfold loadFrom
  split <;> rfl

@[simp] theorem loadFrom_z (d : Reg) (ea : Word N) (s : CoreState N) : (loadFrom d ea s).z = s.z := by
  unfold loadFrom
  split <;> rfl

@[simp] theorem loadFrom_cycleCount (d : Reg) (ea : Word N) (s : CoreState N) :
    (loadFrom d ea s).cycleCount = s.cycleCount := by
  unfold loadFrom
  split <;> rfl

@[simp] theorem loadFrom_temperature (d : Reg) (ea : Word N) (s : CoreState N) :
    (loadFrom d ea s).temperature = s.temperature := by
  unfold loadFrom
  split <;> rfl

@[simp] theorem loadFrom_status (d : Reg) (ea : Word N) (s : CoreState N) : (loadFrom d ea s).status = s.status := by
  unfold loadFrom
  split <;> rfl

@[simp] theorem loadFrom_lastError (d : Reg) (ea : Word N) (s : CoreState N) :
    (loadFrom d ea s).lastError = s.lastError := by
  unfold loadFrom
  split <;> rfl

@[simp] theorem loadFrom_program (d : Reg) (ea : Word N) (s : CoreState N) : (loadFrom d ea s).program = s.program := by
  unfold loadFrom
  split <;> rfl

@[simp] theorem loadFrom_draws (d : Reg) (ea : Word N) (s : CoreState N) : (loadFrom d ea s).draws = s.draws := by
  unfold loadFrom
  split <;> rfl

@[simp] theorem loadFrom_nextPc (d : Reg) (ea : Word N) (s : CoreState N) : (loadFrom d ea s).nextPc = s.nextPc := by
  unfold loadFrom
  split <;> rfl


/-! ### What STORE leaves alone -/

@[simp] theorem storeTo_regs (ea v : Word N) (s : CoreState N) : (storeTo ea v s).regs = s.regs := by
  unfold storeTo
  split <;> rfl

@[simp] theorem storeTo_pc (ea v : Word N) (s : CoreState N) : (storeTo ea v s).pc = s.pc := by
  unfold storeTo
  split <;> rfl

@[simp] theorem storeTo_ir (ea v : Word N) (s : CoreState N) : (storeTo ea v s).ir = s.ir := by
  unfold storeTo
  split <;> rfl

@[simp] theorem storeTo_irValid (ea v : Word N) (s : CoreState N) : (storeTo ea v s).irValid = s.irValid := by
  unfold storeTo
  split <;> rfl

@[simp] theorem storeTo_z (ea v : Word N) (s : CoreState N) : (storeTo ea v s).z = s.z := by
  unfold storeTo
  split <;> rfl

@[simp] theorem storeTo_cycleCount (ea v : Word N) (s : CoreState N) : (storeTo ea v s).cycleCount = s.cycleCount := by
  unfold storeTo
  split <;> rfl

@[simp] theorem storeTo_temperature (ea v : Word N) (s : CoreState N) :
    (storeTo ea v s).temperature = s.temperature := by
  unfold storeTo
  split <;> rfl

@[simp] theorem storeTo_status (ea v : Word N) (s : CoreState N) : (storeTo ea v s).status = s.status := by
  unfold storeTo
  split <;> rfl

@[simp] theorem storeTo_lastError (ea v : Word N) (s : CoreState N) : (storeTo ea v s).lastError = s.lastError := by
  unfold storeTo
  split <;> rfl

@[simp] theorem storeTo_program (ea v : Word N) (s : CoreState N) : (storeTo ea v s).program = s.program := by
  unfold storeTo
  split <;> rfl

@[simp] theorem storeTo_draws (ea v : Word N) (s : CoreState N) : (storeTo ea v s).draws = s.draws := by
  unfold storeTo
  split <;> rfl

@[simp] theorem storeTo_nextPc (ea v : Word N) (s : CoreState N) : (storeTo ea v s).nextPc = s.nextPc := by
  unfold storeTo
  split <;> rfl


/-! ### What MOV leaves alone -/

@[simp] theorem moveTo_ir (d : Reg) (x : Word N) (s : CoreState N) : (moveTo d x s).ir = s.ir := rfl
@[simp] theorem moveTo_irValid (d : Reg) (x : Word N) (s : CoreState N) : (moveTo d x s).irValid = s.irValid := rfl
@[simp] theorem moveTo_z (d : Reg) (x : Word N) (s : CoreState N) : (moveTo d x s).z = s.z := rfl
@[simp] theorem moveTo_cycleCount (d : Reg) (x : Word N) (s : CoreState N) :
    (moveTo d x s).cycleCount = s.cycleCount := rfl
@[simp] theorem moveTo_temperature (d : Reg) (x : Word N) (s : CoreState N) :
    (moveTo d x s).temperature = s.temperature := rfl
@[simp] theorem moveTo_status (d : Reg) (x : Word N) (s : CoreState N) : (moveTo d x s).status = s.status := rfl
@[simp] theorem moveTo_lastError (d : Reg) (x : Word N) (s : CoreState N) :
    (moveTo d x s).lastError = s.lastError := rfl
@[simp] theorem moveTo_mem (d : Reg) (x : Word N) (s : CoreState N) : (moveTo d x s).mem = s.mem := rfl
@[simp] theorem moveTo_program (d : Reg) (x : Word N) (s : CoreState N) : (moveTo d x s).program = s.program := rfl
@[simp] theorem moveTo_draws (d : Reg) (x : Word N) (s : CoreState N) : (moveTo d x s).draws = s.draws := rfl

/-! ### What SUB leaves alone -/

@[simp] theorem subtractFrom_ir (d : Reg) (x : Word N) (s : CoreState N) : (subtractFrom d x s).ir = s.ir := rfl
@[simp] theorem subtractFrom_irValid (d : Reg) (x : Word N) (s : CoreState N) :
    (subtractFrom d x s).irValid = s.irValid := rfl
@[simp] theorem subtractFrom_cycleCount (d : Reg) (x : Word N) (s : CoreState N) :
    (subtractFrom d x s).cycleCount = s.cycleCount := rfl
@[simp] theorem subtractFrom_temperature (d : Reg) (x : Word N) (s : CoreState N) :
    (subtractFrom d x s).temperature = s.temperature := rfl
@[simp] theorem subtractFrom_status (d : Reg) (x : Word N) (s : CoreState N) :
    (subtractFrom d x s).status = s.status := rfl
@[simp] theorem subtractFrom_lastError (d : Reg) (x : Word N) (s : CoreState N) :
    (subtractFrom d x s).lastError = s.lastError := rfl
@[simp] theorem subtractFrom_mem (d : Reg) (x : Word N) (s : CoreState N) : (subtractFrom d x s).mem = s.mem := rfl
@[simp] theorem subtractFrom_program (d : Reg) (x : Word N) (s : CoreState N) :
    (subtractFrom d x s).program = s.program := rfl
@[simp] theorem subtractFrom_draws (d : Reg) (x : Word N) (s : CoreState N) :
    (subtractFrom d x s).draws = s.draws := rfl

/-! ### What JMP and JZ leave alone -/

@[simp] theorem branchTo_regs (op : OpCode) (x : Word N) (s : CoreState N) : (branchTo op x s).regs = s.regs := rfl
@[simp] theorem branchTo_ir (op : OpCode) (x : Word N) (s : CoreState N) : (branchTo op x s).ir = s.ir := rfl
@[simp] theorem branchTo_irValid (op : OpCode) (x : Word N) (s : CoreState N) :
    (branchTo op x s).irValid = s.irValid := rfl
@[simp] theorem branchTo_z (op : OpCode) (x : Word N) (s : CoreState N) : (branchTo op x s).z = s.z := rfl
@[simp] theorem branchTo_cycleCount (op : OpCode) (x : Word N) (s : CoreState N) :
    (branchTo op x s).cycleCount = s.cycleCount := rfl
@[simp] theorem branchTo_temperature (op : OpCode) (x : Word N) (s : CoreState N) :
    (branchTo op x s).temperature = s.temperature := rfl
@[simp] theorem branchTo_status (op : OpCode) (x : Word N) (s : CoreState N) :
    (branchTo op x s).status = s.status := rfl
@[simp] theorem branchTo_lastError (op : OpCode) (x : Word N) (s : CoreState N) :
    (branchTo op x s).lastError = s.lastError := rfl
@[simp] theorem branchTo_mem (op : OpCode) (x : Word N) (s : CoreState N) : (branchTo op x s).mem = s.mem := rfl
@[simp] theorem branchTo_program (op : OpCode) (x : Word N) (s : CoreState N) :
    (branchTo op x s).program = s.program := rfl
@[simp] theorem branchTo_draws (op : OpCode) (x : Word N) (s : CoreState N) : (branchTo op x s).draws = s.draws := rfl

/-! ### What ADD leaves alone -/

@[simp] theorem addTo_ir (d : Reg) (x : Word N) (s : CoreState N) : (addTo d x s).ir = s.ir := rfl
@[simp] theorem addTo_irValid (d : Reg) (x : Word N) (s : CoreState N) : (addTo d x s).irValid = s.irValid := rfl
@[simp] theorem addTo_z (d : Reg) (x : Word N) (s : CoreState N) : (addTo d x s).z = s.z := rfl
@[simp] theorem addTo_cycleCount (d : Reg) (x : Word N) (s : CoreState N) :
    (addTo d x s).cycleCount = s.cycleCount := rfl
@[simp] theorem addTo_temperature (d : Reg) (x : Word N) (s : CoreState N) :
    (addTo d x s).temperature = s.temperature := rfl
@[simp] theorem addTo_status (d : Reg) (x : Word N) (s : CoreState N) : (addTo d x s).status = s.status := rfl
@[simp] theorem addTo_lastError (d : Reg) (x : Word N) (s : CoreState N) : (addTo d x s).lastError = s.lastError := rfl
@[simp] theorem addTo_mem (d : Reg) (x : Word N) (s : CoreState N) : (addTo d x s).mem = s.mem := rfl
@[simp] theorem addTo_program (d : Reg) (x : Word N) (s : CoreState N) : (addTo d x s).program = s.program := rfl
@[simp] theorem addTo_draws (d : Reg) (x : Word N) (s : CoreState N) : (addTo d x s).draws = s.draws := rfl

/-! ### What CMP leaves alone -/

@[simp] theorem compareWith_regs (a : Reg) (x : Word N) (s : CoreState N) : (compareWith a x s).regs = s.regs := rfl
@[simp] theorem compareWith_ir (a : Reg) (x : Word N) (s : CoreState N) : (compareWith a x s).ir = s.ir := rfl
@[simp] theorem compareWith_irValid (a : Reg) (x : Word N) (s : CoreState N) :
    (compareWith a x s).irValid = s.irValid := rfl
@[simp] theorem compareWith_cycleCount (a : Reg) (x : Word N) (s : CoreState N) :
    (compareWith a x s).cycleCount = s.cycleCount := rfl
@[simp] theorem compareWith_temperature (a : Reg) (x : Word N) (s : CoreState N) :
    (compareWith a x s).temperature = s.temperature := rfl
@[simp] theorem compareWith_status (a : Reg) (x : Word N) (s : CoreState N) :
    (compareWith a x s).status = s.status := rfl
@[simp] theorem compareWith_lastError (a : Reg) (x : Word N) (s : CoreState N) :
    (compareWith a x s).lastError = s.lastError := rfl
@[simp] theorem compareWith_mem (a : Reg) (x : Word N) (s : CoreState N) : (compareWith a x s).mem = s.mem := rfl
@[simp] theorem compareWith_program (a : Reg) (x : Word N) (s : CoreState N) :
    (compareWith a x s).program = s.program := rfl
@[simp] theorem compareWith_draws (a : Reg) (x : Word N) (s : CoreState N) : (compareWith a x s).draws = s.draws := rfl

end Sys2Proof.Machine
end

