-- ==== Sys2Proof/Laws/Step.lean ====
section
/-! SUPPORT. What a step can do, said once: the four ways of 40_cycle R138. -/

namespace Sys2Proof.Machine

variable {N : Nat}

@[simp] theorem terminal_halted : Status.halted.terminal = true := rfl
@[simp] theorem terminal_error : Status.error.terminal = true := rfl
@[simp] theorem terminal_idle : Status.idle.terminal = false := rfl
@[simp] theorem terminal_running : Status.running.terminal = false := rfl

theorem terminal_iff (st : Status) : st.terminal = true ↔ st = .halted ∨ st = .error := by
  cases st <;> simp

theorem not_terminal_iff (st : Status) : st.terminal = false ↔ st = .idle ∨ st = .running := by
  cases st <;> simp

/-- The fetch finds no word exactly past the end of the program (40_cycle R124). -/
theorem CoreState.fetch_eq_none_iff (s : CoreState N) : s.fetch = none ↔ s.program.length ≤ s.pc.toNat := by
  simp [CoreState.fetch]

/-- A word is fetched only at an index inside the program (40_cycle R125). -/
theorem CoreState.lt_of_fetch {s : CoreState N} {w : InstrWord N} (h : s.fetch = some w) :
    s.pc.toNat < s.program.length := by
  rw [CoreState.fetch, List.getElem?_eq_some_iff] at h
  exact h.1

/-- Everything a step can do: nothing on a terminal status, halt past the end, take the fatal path on a
malformed word, or execute the decoded instruction after the phases before it. -/
theorem step_cases {s : CoreState N} {o : Host.Outcome State Fault Refusal} (h : step ⟨N, s⟩ = o) :
    (s.status.terminal = true ∧ o = .next ⟨N, s⟩) ∨
    (s.status.terminal = false ∧ s.fetch = none ∧ o = .next ⟨N, s.countCycle.setHalted⟩) ∨
    (∃ w code, s.status.terminal = false ∧ s.fetch = some w ∧ decode w = .error code ∧
      o = .next ⟨N, (s.countCycle.beginInstruction w).fatal code⟩) ∨
    (∃ w i, s.status.terminal = false ∧ s.fetch = some w ∧ decode w = .ok i ∧
      o = exec i ⟨N, s.countCycle.beginInstruction w⟩) := by
  simp only [step, CoreState.countCycle_fetch, State.withCore_mk] at h
  cases ht : s.status.terminal with
  | true =>
    rw [if_pos ht] at h
    exact .inl ⟨rfl, h.symm⟩
  | false =>
    rw [if_neg (by simp [ht])] at h
    cases hf : s.fetch with
    | none =>
      rw [hf] at h
      exact .inr (.inl ⟨rfl, rfl, h.symm⟩)
    | some w =>
      rw [hf] at h
      cases hd : decode w with
      | error code =>
        simp only [hd] at h
        exact .inr (.inr (.inl ⟨w, code, rfl, rfl, hd, h.symm⟩))
      | ok i =>
        simp only [hd] at h
        exact .inr (.inr (.inr ⟨w, i, rfl, rfl, hd, h.symm⟩))

/-- The optional TRACE is no event or one TRACE of the given op (40_cycle R128). -/
theorem optTrace_cases (N : Nat) (op : BitVec 4) (n : Nat) :
    optTrace N op n = none ∨ ∃ a b c, optTrace N op n = some ⟨.trace, op, a, b, c⟩ := by
  unfold optTrace
  split
  · exact .inl rfl
  · exact .inr ⟨_, _, _, rfl⟩

/-- The program with a word at an index has it there. -/
theorem programWith_get (words : List (InstrWord N)) (k : Nat) (w : InstrWord N) :
    (programWith words k w)[k]? = some w := by
  have hlt : k < (words ++ List.replicate (k + 1 - words.length) 0).length := by
    simp only [List.length_append, List.length_replicate]
    omega
  simp only [programWith, List.getElem?_set_self hlt]

/-- The next step fetches the word that was placed for it. -/
theorem CoreState.withFetchWord_fetch (s : CoreState N) (w : InstrWord N) : (s.withFetchWord w).fetch = some w :=
  programWith_get _ _ _

/-- The next step after a word was placed for it does fetch: the status is not terminal. -/
theorem CoreState.withFetchWord_runs (s : CoreState N) (w : InstrWord N) :
    (s.withFetchWord w).status.terminal = false := by
  show (if s.status.terminal = true then Status.idle else s.status).terminal = false
  cases h : s.status.terminal with
  | true => rfl
  | false => exact h

end Sys2Proof.Machine
end

