-- ==== Sys2Proof/Laws/Host.lean ====
section
/-! SUPPORT. What a host move and a transition can do, said once. -/

namespace Sys2Proof.Machine

variable {N : Nat}

/-- Everything a host move can do: power on, load a program, write `status` where it is not terminal, or
write a cell. -/
theorem hostMove_cases {m : HostMove} {s : CoreState N} {o : State} (h : hostMove m ⟨N, s⟩ = some o) :
    ∃ t : CoreState N, o = ⟨N, t⟩ ∧
      ((∃ planted, m = .powerOn planted ∧ (∀ p ∈ planted, p.1 < Config.memSize ∧ p.2.1 < 2 ^ N) ∧
          t = { CoreState.reset N with
            mem := (CoreState.reset N).mem.writeAll (plantedCells N planted), draws := s.draws }) ∨
        (∃ words, m = .loadProgram words ∧ words.length ≤ Config.maxProgramLength N ∧
          (∀ w ∈ words, w < 2 ^ (N + 16)) ∧
          t = ({ s with program := words.map (BitVec.ofNat (N + 16)) } : CoreState N).resetProcessor) ∨
        (∃ st, m = .setStatus st ∧ st.terminal = false ∧
          ((s.status.terminal = true ∧ t = s) ∨ (s.status.terminal = false ∧ t = { s with status := st }))) ∨
        (∃ a v tick, m = .writeCell a v tick ∧ a < Config.memSize ∧ v < 2 ^ N ∧
          t = { s with mem := s.mem.write a ⟨BitVec.ofNat N v, tick⟩ })) := by
  cases m with
  | powerOn planted =>
    simp only [hostMove, hostPowerOn] at h
    split at h
    · rename_i hp
      cases h
      exact ⟨_, rfl, .inl ⟨planted, rfl, by simpa [cellFits] using hp, rfl⟩⟩
    · cases h
  | loadProgram words =>
    simp only [hostMove, hostLoadProgram] at h
    split at h
    · rename_i hp
      cases h
      exact ⟨_, rfl, .inr (.inl ⟨words, rfl, hp.1, by simpa using hp.2, rfl⟩)⟩
    · cases h
  | setStatus st =>
    simp only [hostMove, hostSetStatus] at h
    split at h
    · cases h
    · rename_i hst
      have hst : st.terminal = false := by simpa using hst
      split at h
      · rename_i hs
        cases h
        exact ⟨_, rfl, .inr (.inr (.inl ⟨st, rfl, hst, .inl ⟨hs, rfl⟩⟩))⟩
      · rename_i hs
        have hs : s.status.terminal = false := by simpa using hs
        cases h
        exact ⟨_, rfl, .inr (.inr (.inl ⟨st, rfl, hst, .inr ⟨hs, rfl⟩⟩))⟩
  | writeCell a v tick =>
    simp only [hostMove, hostWriteCell] at h
    split at h
    · rename_i hc
      cases h
      have hc : a < Config.memSize ∧ v < 2 ^ N := by simpa [cellFits] using hc
      exact ⟨_, rfl, .inr (.inr (.inr ⟨a, v, tick, rfl, hc.1, hc.2, rfl⟩))⟩
    · cases h

/-- A transition is a step that answers a next state, or a host move. -/
theorem move_cases {m : Move} {s t : State} (h : move m s = some t) :
    (m = .step ∧ step s = .next t) ∨ ∃ x, m = .host x ∧ hostMove x s = some t := by
  cases m with
  | step =>
    simp only [move] at h
    split at h
    · rename_i u hu
      cases h
      exact .inl ⟨rfl, hu⟩
    · cases h
    · cases h
  | host x => exact .inr ⟨x, rfl, h⟩

end Sys2Proof.Machine
end

