-- ==== Sys2Proof/Laws/PerInstr.lean ====
section
/-! SUPPORT. Per instruction: at every width N, the word of every instruction has its opcode's number, its mode, RSV 0,
and passes every check of 30_encoding R88. -/

namespace Sys2Proof.Laws

/-- The fields of an instruction's word are legal (30_encoding R87, R88). -/
def LegalFields.Statement (i : Instr) : Prop :=
  ∀ N : Nat, opField (encode N i) = (opCodeOfInstr i).number ∧ mField (encode N i) = modeOfInstr i ∧
    allowedM (opCodeOfInstr i) (mField (encode N i)) = true ∧
    rsvField (encode N i) = 0 ∧ wellFormedWord (encode N i) = true

theorem LegalFields.mov (d : Reg) (v : Nat) : LegalFields.Statement (.mov d v) := by
  intro N
  simp [encode, opCodeOfInstr, modeOfInstr, allowedM, wellFormedWord, opcodeLegal,
    modeLegal, reservedLegal, rsvLegal, aLegal, bRegisterLegal, bUnusedLegal, OpCode.number]

theorem LegalFields.addReg (d s : Reg) : LegalFields.Statement (.addReg d s) := by
  intro N
  simp [encode, opCodeOfInstr, modeOfInstr, allowedM, wellFormedWord, opcodeLegal,
    modeLegal, reservedLegal, rsvLegal, aLegal, bRegisterLegal, bUnusedLegal, OpCode.number]

theorem LegalFields.addImm (d : Reg) (v : Nat) : LegalFields.Statement (.addImm d v) := by
  intro N
  simp [encode, opCodeOfInstr, modeOfInstr, allowedM, wellFormedWord, opcodeLegal,
    modeLegal, reservedLegal, rsvLegal, aLegal, bRegisterLegal, bUnusedLegal, OpCode.number]

theorem LegalFields.sub (d s : Reg) : LegalFields.Statement (.sub d s) := by
  intro N
  simp [encode, opCodeOfInstr, modeOfInstr, allowedM, wellFormedWord, opcodeLegal,
    modeLegal, reservedLegal, rsvLegal, aLegal, bRegisterLegal, bUnusedLegal, OpCode.number]

theorem LegalFields.cmpReg (a s : Reg) : LegalFields.Statement (.cmpReg a s) := by
  intro N
  simp [encode, opCodeOfInstr, modeOfInstr, allowedM, wellFormedWord, opcodeLegal,
    modeLegal, reservedLegal, rsvLegal, aLegal, bRegisterLegal, bUnusedLegal, OpCode.number]

theorem LegalFields.cmpImm (a : Reg) (v : Nat) : LegalFields.Statement (.cmpImm a v) := by
  intro N
  simp [encode, opCodeOfInstr, modeOfInstr, allowedM, wellFormedWord, opcodeLegal,
    modeLegal, reservedLegal, rsvLegal, aLegal, bRegisterLegal, bUnusedLegal, OpCode.number]

theorem LegalFields.jmp (t : Nat) : LegalFields.Statement (.jmp t) := by
  intro N
  simp [encode, opCodeOfInstr, modeOfInstr, allowedM, wellFormedWord, opcodeLegal,
    modeLegal, reservedLegal, rsvLegal, aLegal, bRegisterLegal, bUnusedLegal, OpCode.number]

theorem LegalFields.jz (t : Nat) : LegalFields.Statement (.jz t) := by
  intro N
  simp [encode, opCodeOfInstr, modeOfInstr, allowedM, wellFormedWord, opcodeLegal,
    modeLegal, reservedLegal, rsvLegal, aLegal, bRegisterLegal, bUnusedLegal, OpCode.number]

theorem LegalFields.load (d s : Reg) : LegalFields.Statement (.load d s) := by
  intro N
  simp [encode, opCodeOfInstr, modeOfInstr, allowedM, wellFormedWord, opcodeLegal,
    modeLegal, reservedLegal, rsvLegal, aLegal, bRegisterLegal, bUnusedLegal, OpCode.number]

theorem LegalFields.storeReg (s t : Reg) : LegalFields.Statement (.storeReg s t) := by
  intro N
  simp [encode, opCodeOfInstr, modeOfInstr, allowedM, wellFormedWord, opcodeLegal,
    modeLegal, reservedLegal, rsvLegal, aLegal, bRegisterLegal, bUnusedLegal, OpCode.number]

theorem LegalFields.storeAbs (s : Reg) (addr : Nat) : LegalFields.Statement (.storeAbs s addr) := by
  intro N
  simp [encode, opCodeOfInstr, modeOfInstr, allowedM, wellFormedWord, opcodeLegal,
    modeLegal, reservedLegal, rsvLegal, aLegal, bRegisterLegal, bUnusedLegal, OpCode.number]

theorem LegalFields.halt : LegalFields.Statement (.halt) := by
  intro N
  simp [encode, opCodeOfInstr, modeOfInstr, allowedM, wellFormedWord, opcodeLegal,
    modeLegal, reservedLegal, rsvLegal, aLegal, bRegisterLegal, bUnusedLegal, OpCode.number]

theorem LegalFields.print (r : Reg) : LegalFields.Statement (.print r) := by
  intro N
  simp [encode, opCodeOfInstr, modeOfInstr, allowedM, wellFormedWord, opcodeLegal,
    modeLegal, reservedLegal, rsvLegal, aLegal, bRegisterLegal, bUnusedLegal, OpCode.number]

end Sys2Proof.Laws
end

