-- ==== Sys2Proof/Tests/Slice0.lean ====
section
/-! SUPPORT. Small tests. Expected results are from 95_test_vectors.md, whose row each test names, or worked out
by hand from the rule it names; and a witness for the hypotheses of each statement. -/

namespace Sys2Proof.Tests

open Sys2Proof.Machine

/-- A core of width 16. -/
abbrev Core := CoreState 16

/-- A machine of width 16. -/
abbrev machine (c : Core) : State := ⟨16, c⟩

/-- The word's decoding at N = 16. -/
abbrev decode16 (w : InstrWord 16) : Except Malformed Instr := decode w

/-- What a field of the core of width N is, in a state of that width. -/
def coreField {α : Type} (N : Nat) (s : State) (f : CoreState N → α) : Option α :=
  if h : s.width = N then some (f (h ▸ s.core)) else none

/-- What a field of the next state is, when there is one of width N. -/
def afterAt {α : Type} (N : Nat) (o : Host.Outcome State Fault Refusal) (f : CoreState N → α) : Option α :=
  match o with
  | .next t => coreField N t f
  | .fault _ => none
  | .refused _ => none

/-- What a field of the next state is, when there is one of width 16. -/
abbrev after {α : Type} (o : Host.Outcome State Fault Refusal) (f : Core → α) : Option α := afterAt 16 o f

/-- A running machine at index 4 with the given registers. -/
def running (regs : Vector (Word 16) 8) : Core :=
  { CoreState.reset 16 with status := .running, pc := 4, regs := regs }

/-- A machine of any status at index 4 of a program of five words whose last is given. -/
def loaded (st : Status) (w : InstrWord 16) : Core :=
  { CoreState.reset 16 with status := st, pc := 4, program := [0, 0, 0, 0, w] }

/-- Registers with boundary addresses: R1 = 1023, R2 = 1024, R3 = 0xFFFF. -/
def edges : Core := running #v[10, 1023, 1024, 0xFFFF, 0x7FFF, 5, 0, 0x8000]

/-! ### Decoding: 95_test_vectors section 2.1, and words written out from 30_encoding R87 -/

theorem test_decode_mov : decode16 0x0800000A = .ok (.mov 0 10) ∧ decode16 0x0B00FFFF = .ok (.mov 3 0xFFFF) := by decide
theorem test_decode_add :
    decode16 0x10000001 = .ok (.addReg 0 1) ∧ decode16 0x18000032 = .ok (.addImm 0 50) := by decide
theorem test_decode_sub : decode16 0x20000001 = .ok (.sub 0 1) ∧ decode16 0x22000002 = .ok (.sub 2 2) := by decide
theorem test_decode_cmp :
    decode16 0x31000004 = .ok (.cmpReg 1 4) ∧ decode16 0x3A000063 = .ok (.cmpImm 2 99) := by decide
theorem test_decode_branch : decode16 0x48000002 = .ok (.jmp 2) ∧ decode16 0x58000007 = .ok (.jz 7) := by decide
theorem test_decode_load : decode16 0x65000001 = .ok (.load 5 1) ∧ decode16 0x63000003 = .ok (.load 3 3) := by decide
theorem test_decode_store :
    decode16 0x76000006 = .ok (.storeReg 6 6) ∧ decode16 0x78000032 = .ok (.storeAbs 0 50) := by decide
theorem test_decode_system : decode16 0x80000000 = .ok .halt ∧ decode16 0x97000000 = .ok (.print 7) := by decide

theorem test_illegal_opcode :
    decode16 0xA0000000 = .error .illegalOpcode ∧ decode16 0xF8FFFFFF = .error .illegalOpcode := by decide
theorem test_illegal_mode :
    decode16 0x00000000 = .error .illegalMode ∧ decode16 0x28000001 = .error .illegalMode ∧
    decode16 0x40000002 = .error .illegalMode ∧ decode16 0x68000001 = .error .illegalMode ∧
    decode16 0x88000000 = .error .illegalMode := by decide
theorem test_reserved_nonzero :
    decode16 0x1000000B = .error .reservedNonzero ∧ decode16 0x49000002 = .error .reservedNonzero ∧
    decode16 0x600000FF = .error .reservedNonzero ∧ decode16 0x700007D0 = .error .reservedNonzero ∧
    decode16 0x80000001 = .error .reservedNonzero ∧ decode16 0x90000001 = .error .reservedNonzero ∧
    decode16 0x08010000 = .error .reservedNonzero := by decide

/-- Each field of a word written bit by bit from 30_encoding R81: 0111 1 101 00000000 0000000000001001. -/
theorem test_word_by_bits : decode16 0b01111101000000000000000000001001 = .ok (.storeAbs 5 9) := by decide

theorem test_encode :
    encode 16 (.mov 3 0xFFFF) = 0x0B00FFFF ∧ encode 16 (.storeReg 0 3) = 0x70000003 ∧ encode 16 (.jz 7) = 0x58000007 ∧
    encode 16 .halt = 0x80000000 ∧ encode 16 (.print 1) = 0x91000000 := by decide
theorem test_decodeTableWord :
    decodeTableWord 32 0x18000032 = some (.addImm 0 50) ∧ decodeTableWord 32 0x08010000 = none := by decide
/-- 20_memory R58: four different bytes, each in its place. -/
theorem test_bytes_big_endian :
    bytesOfWord (N := 16) 0x0B01C2FE = some [0x0B, 0x01, 0xC2, 0xFE] ∧
    wordOfBytes 16 [0x0B, 0x01, 0xC2, 0xFE] = some 0x0B01C2FE ∧ wordOfBytes 16 [0x0B, 0x01, 0xC2] = none := by decide

/-! ### Other widths: words written out from the column "general N" of 30_encoding R81 -/

/-- The least N, 12: MOV R3, #0xFFF is 0000 1 011 00000000 111111111111; STORE R5, #9; OP 10. -/
theorem test_width_twelve :
    decode (N := 12) 0b0000101100000000111111111111 = .ok (.mov 3 0xFFF) ∧
    decode (N := 12) 0x7D00009 = .ok (.storeAbs 5 9) ∧ decode (N := 12) 0xA000000 = .error .illegalOpcode ∧
    encode 12 (.mov 3 0xFFF) = 0x0B00FFF := by decide
/-- N = 20: CMP R2, #0x80000 is 0011 1 010 00000000 and 20 bits of B; bit 20 is of RSV. -/
theorem test_width_twenty :
    decode (N := 20) 0x3A0080000 = .ok (.cmpImm 2 0x80000) ∧
    decode (N := 20) 0x3A0100000 = .error .reservedNonzero ∧ encode 20 (.jmp 0xFFFFF) = 0x4800FFFFF := by decide
/-- R103 at N = 12: the masks and patterns of ADD's two rows. -/
theorem test_table_twelve :
    tableRow 12 (.addReg 0 0) = ⟨"ADD", 0x1000000, 0xF8FFFF8⟩ ∧
    tableRow 12 (.addImm 0 0) = ⟨"ADD", 0x1800000, 0xF8FF000⟩ := by decide
/-- At N = 12 the sum wraps at 2^12 (41_alu R160), and a step executes from IDLE. -/
theorem test_add_wraps_at_twelve :
    afterAt 12 (exec (.addImm 0 1) ⟨12, { CoreState.reset 12 with regs := #v[0xFFF, 0, 0, 0, 0, 0, 0, 0] }⟩)
      (fun t => t.readReg 0) = some 0 := by decide
theorem test_step_at_twelve :
    afterAt 12 (step ⟨12, { CoreState.reset 12 with program := [0x0B00FFF] }⟩)
      (fun t => (t.readReg 3, t.pc, t.status)) = some (0xFFF, 1, .running) := by decide

/-! ### Well-formedness: an ill-formed word for each check of 30_encoding R88, and its program bound -/

theorem test_ill_formed_opcode :
    opcodeLegal (N := 16) 0xA0000000 = false ∧ wellFormedWord (N := 16) 0xA0000000 = false := by decide
theorem test_ill_formed_mode :
    modeLegal (N := 16) 0x00000000 = false ∧ wellFormedWord (N := 16) 0x00000000 = false := by decide
theorem test_ill_formed_rsv :
    rsvLegal (N := 16) 0x08010000 = false ∧ wellFormedWord (N := 16) 0x08010000 = false := by decide
theorem test_ill_formed_a :
    aLegal (N := 16) 0x49000002 = false ∧ wellFormedWord (N := 16) 0x49000002 = false := by decide
theorem test_ill_formed_b_register :
    bRegisterLegal (N := 16) 0x1000000B = false ∧ wellFormedWord (N := 16) 0x1000000B = false := by decide
theorem test_ill_formed_b_unused :
    bUnusedLegal (N := 16) 0x80000001 = false ∧ wellFormedWord (N := 16) 0x80000001 = false := by decide
theorem test_well_formed : wellFormedWord (N := 16) 0x78000032 = true ∧ wellFormed 16 (.load 5 1) = true := by decide
/-- A number in B that N bits do not hold, and the last that they do (30_encoding R84, R85). -/
theorem test_ill_formed_number :
    bFits 16 (.mov 0 65536) = false ∧ wellFormed 16 (.mov 0 65536) = false ∧ wellFormed 16 (.mov 0 65535) = true ∧
    wellFormed 12 (.jmp 4096) = false ∧ wellFormed 12 (.jmp 4095) = true := by decide
theorem test_program_too_long : loadable (N := 16) (List.replicate 65536 0) = false := by
  rw [loadable, List.length_replicate]
  decide
theorem test_program_longest : loadable (N := 16) (List.replicate 65535 0) = true := by
  rw [loadable, List.length_replicate]
  decide

/-! ### Instructions: one step each -/

/-- MOV2: R3 = 0xFFFF, its TRACE, pc + 1. -/
theorem test_mov : after (exec (.mov 3 0xFFFF) (machine edges)) (fun t => (t.readReg 3, t.log, t.pc)) =
    some (0xFFFF, [⟨.trace, 0, 3, 0xFFFF, 0⟩], 5) := by decide
/-- ADD1 and the order of the TRACE's payload. -/
theorem test_addReg : after (exec (.addReg 0 1) (machine (running #v[10, 20, 0, 0, 0, 0, 0, 0])))
    (fun t => (t.readReg 0, t.log)) = some (30, [⟨.trace, 1, 10, 20, 30⟩]) := by decide
/-- ADD3: a register added to itself. -/
theorem test_addReg_self : after (exec (.addReg 3 3) (machine (running #v[0, 0, 0, 7, 0, 0, 0, 0])))
    (fun t => t.readReg 3) = some 14 := by decide
/-- ADD4 and ADD7: the sum wraps, and Z is not written. -/
theorem test_addImm_wraps : after (exec (.addImm 4 1) (machine edges)) (fun t => (t.readReg 4, t.z)) =
    some (0x8000, false) := by decide
theorem test_addImm_keeps_z :
    after (exec (.addImm 3 1) (machine { edges with z := true })) (fun t => (t.readReg 3, t.z)) =
    some (0, true) := by decide
/-- SUB2 and SUB4: wrap below 0 and below the most negative value. -/
theorem test_sub_wraps : after (exec (.sub 0 1) (machine (running #v[0, 1, 0, 0, 0, 0, 0, 0])))
    (fun t => (t.readReg 0, t.z)) = some (0xFFFF, false) := by decide
theorem test_sub_zero :
    after (exec (.sub 1 1) (machine edges)) (fun t => (t.readReg 1, t.z)) = some (0, true) := by decide
/-- CMP3 shape, and CMP2's payload with the flag clear. -/
theorem test_cmpReg :
    after (exec (.cmpReg 5 5) (machine edges)) (fun t => (t.z, t.readReg 5)) = some (true, 5) := by decide
theorem test_cmpImm : after (exec (.cmpImm 0 99) (machine { edges with z := true })) (fun t => (t.z, t.log)) =
    some (false, [⟨.trace, 3, 10, 99, 0⟩]) := by decide
/-- J1, and J3: a target past the end is taken. -/
theorem test_jmp : after (exec (.jmp 9) (machine edges)) (fun t => t.pc) = some 9 := by decide
/-- J5 and J6. -/
theorem test_jz_taken : after (exec (.jz 7) (machine { edges with z := true })) (fun t => (t.pc, t.z)) =
    some (7, true) := by decide
theorem test_jz_not_taken : after (exec (.jz 7) (machine edges)) (fun t => t.pc) = some 5 := by decide
/-- LD4 and LD6: the last cell; the address register is the destination. -/
theorem test_load_last_cell :
    after (exec (.load 1 1) (machine { edges with mem := ⟨[(1023, ⟨0x1234, 0⟩)]⟩ })) (fun t => (t.readReg 1, t.pc)) =
      some (0x1234, 5) := by decide
/-- LD5: address 1024 is out of range. -/
theorem test_load_out_of_range : after (exec (.load 6 2) (machine edges)) (fun t => (t.readReg 6, t.log, t.pc)) =
    some (0, [⟨.segFault, 6, 1024, 0, 0⟩], 5) := by decide
/-- ST3 and ST7: no truncation, the address from the stored register. -/
theorem test_storeReg : after (exec (.storeReg 1 1) (machine edges)) (fun t => t.memRead 1023) = some 1023 := by decide
/-- ST4: address 1024 is dropped without an event. -/
theorem test_storeReg_dropped :
    after (exec (.storeReg 0 2) (machine edges)) (fun t => (t.mem.cells.length, t.log, t.pc)) =
    some (0, [], 5) := by decide
theorem test_storeAbs : after (exec (.storeAbs 3 50) (machine edges)) (fun t => (t.memRead 50, t.mem.cells.length)) =
    some (0xFFFF, 1) := by decide
/-- ST2. -/
theorem test_storeAbs_dropped :
    after (exec (.storeAbs 0 2000) (machine edges)) (fun t => (t.mem.cells.length, t.log, t.pc)) =
    some (0, [], 5) := by decide
/-- H1. -/
theorem test_halt : after (exec .halt (machine edges)) (fun t => (t.status, t.pc, t.log)) =
    some (.halted, 4, [⟨.halt, 8, 0, 0, 0⟩]) := by decide
/-- PR2 shape. -/
theorem test_print : after (exec (.print 3) (machine edges)) (fun t => (t.log, t.pc)) =
    some ([⟨.output, 9, 0xFFFF, 0, 0⟩], 5) := by decide

/-! ### The step engine: 95_test_vectors section 2.11 -/

/-- C3: a step on the reset state, which has no program, halts it and counts. -/
theorem test_step_no_program : after (step State.reset) (fun t => (t.status, t.cycleCount, t.pc, t.irValid)) =
    some (.halted, 1, 0, false) := by decide
/-- C4: a step from IDLE executes and advances. -/
theorem test_step_from_idle : after (step (machine { CoreState.reset 16 with program := [0x08000007] }))
    (fun t => (t.status, t.readReg 0, t.pc, t.cycleCount, t.ir)) = some (.running, 7, 1, 1, 0x08000007) := by decide
/-- C6: the fatal path. -/
theorem test_step_fatal : after (step (machine (loaded .running 0xA0000000)))
    (fun t => (t.status, t.lastError, t.pc, t.ir, t.cycleCount)) =
      some (.error, some .illegalOpcode, 4, 0xA0000000, 1) := by decide
/-- C9: the cycle counter wraps. -/
theorem test_step_count_wraps :
    after (step (machine { loaded .running 0x80000000 with cycleCount := 0xFFFFFFFF })) (fun t => t.cycleCount) =
      some 0 := by decide
/-- C1: a terminal step counts nothing. -/
theorem test_step_terminal : after (step (machine { loaded .halted 0x80000000 with cycleCount := 6 }))
    (fun t => (t.cycleCount, t.status)) = some (6, .halted) := by decide
/-- C10: 89.5 raised by 1 is clamped at 90. -/
theorem test_temperature_clamped : raiseTemperature (179 / 2) 1 = 90 := by
  norm_num [raiseTemperature, Config.tempMax]

/-- Every row of spec/opcode_table.json runs as the first instruction after reset. -/
theorem test_rows_run_first :
    [0x08000000, 0x10000000, 0x18000000, 0x20000000, 0x30000000, 0x38000000, 0x48000000, 0x58000000,
      0x60000000, 0x70000000, 0x78000000, 0x90000000].all
        (fun w => after (step (State.reset.withFetchWord 32 w)) (fun t => t.status) == some .running) = true := by
  decide
theorem test_halt_runs_first :
    after (step (State.reset.withFetchWord 32 0x80000000)) (fun t => t.status) = some .halted := by decide
/-- A word is placed where a machine in the middle of its program fetches next. -/
theorem test_withFetchWord_in_place :
    after (step ((machine (loaded .error 0xA0000000)).withFetchWord 32 0x0B00FFFF))
      (fun t => (t.readReg 3, t.pc, t.status)) = some (0xFFFF, 5, .running) := by decide

/-! ### The host and the text it renders -/

theorem test_host_load :
    (hostMove (.loadProgram [0x80000000]) (machine edges)).bind
      (fun t => coreField 16 t (fun c => (c.program, c.pc, c.status))) = some ([0x80000000], 0, .idle) := by decide
/-- A number that is no word of the width, and one that is no value of a cell: the host has no such move. -/
theorem test_host_only_words :
    (hostMove (.loadProgram [2 ^ 32]) (machine edges)).isNone = true ∧
    (hostMove (.writeCell 0 (2 ^ 16) 0) (machine edges)).isNone = true := by decide
theorem test_host_never_writes_error : hostMove (.setStatus .error) (machine edges) = none := rfl
theorem test_host_writes_no_cell_1024 : hostMove (.writeCell 1024 0 0) (machine edges) = none := rfl
/-- PR1 and PR2. -/
theorem test_output_line :
    outputLine (N := 16) 30 = ">> OUTPUT: 30" ∧ outputLine (N := 16) 0xFFFF = ">> OUTPUT: -1" := by decide

/-! ### The assembler: 95_test_vectors section 2.2 -/

/-- A legacy instruction without its identity and description. -/
def legacy (op : OpCode) (args : List Int) : Except AsmRefusal (InstrWord 16) := legacyWord 16 ⟨"", op, args, ""⟩

theorem test_legacy_words :
    legacy .mov [3, -1] = .ok 0x0B00FFFF ∧ legacy .add [0, 5] = .ok 0x10000005 ∧
    legacy .add [0, 50] = .ok 0x18000032 ∧ legacy .add [0, -8] = .ok 0x1800FFF8 ∧
    legacy .cmp [0, 7] = .ok 0x30000007 ∧ legacy .cmp [0, 8] = .ok 0x38000008 ∧
    legacy .store [0, 3] = .ok 0x70000003 ∧ legacy .store [0, 50] = .ok 0x78000032 ∧
    legacy .halt [] = .ok 0x80000000 := by decide
theorem test_legacy_refused :
    legacy .mov [8, 1] = .error .registerRange ∧ legacy .mov [0, 40000] = .error .immediateRange ∧
    legacy .cmp [0, -3] = .error .negativeCmp ∧ legacy .store [0, -1] = .error .negativeStore ∧
    legacy .jmp [-1] = .error .indexRange ∧ legacy .jmp [3, 4] = .error .arity ∧
    legacy .sub [1, 9] = .error .registerRange := by decide
/-- A label stands for the index of the next instruction (30_encoding R97). -/
theorem test_assemble_text :
    assembleText 16 "CMP r2, #0x63\nJZ done\nSTORE R0, #2000\ndone: HALT".toList =
      .ok [0x3A000063, 0x58000003, 0x780007D0, 0x80000000] := by decide
theorem test_assemble_text_refused :
    assembleText 16 "CMP R0, #65535".toList = .error .immediateRange ∧
    assembleText 16 "JMP nowhere".toList = .error .undefinedLabel := by decide
/-- The model's choice (log 15): a label after which no instruction follows stands for L, here 1. -/
theorem test_label_at_end : assembleText 16 "JMP end\nend:".toList = .ok [0x48000001] := by decide

/-! ### Witnesses: states that meet the hypotheses of the statements -/

/-- MovResult, AddResult, SubResult, CmpResult, JmpResult, JzResult, PrintResult. -/
theorem witness_running : edges.status = .running := rfl
/-- JzResult, each clause: Z set and Z clear. -/
theorem witness_jz : { edges with z := true }.z = true ∧ edges.z = false := by decide
/-- LoadInRange, StoreInRange, StoreThenLoad: the last cell, 1023, and cell 0. -/
theorem witness_in_range :
    edges.status = .running ∧ (edges.readReg 1).toNat < 1024 ∧ (edges.readReg 6).toNat < 1024 ∧
    (1023#16).toNat < 1024 ∧ edges.readReg 1 = 1023 := by decide
/-- OutOfRangeAccess: 1024 and 0xFFFF. -/
theorem witness_out_of_range :
    edges.status = .running ∧ 1024 ≤ (edges.readReg 2).toNat ∧ 1024 ≤ (edges.readReg 3).toNat ∧
    1024 ≤ (1024#16).toNat := by decide
/-- WellFormedProgramNeverFaults: a program of one instruction, and a load of another. -/
theorem witness_safe_program :
    (∀ w ∈ ({ edges with program := [0x80000000] } : Core).program, wellFormedWord w = true) ∧
    ¬ ({ edges with program := [0x80000000] } : Core).faulted ∧
    (∀ w ∈ [0x0800000A], wellFormedWord (BitVec.ofNat 32 w) = true) ∧
    (runMoves [.step, .host (.loadProgram [0x0800000A])]
      (machine { edges with program := [0x80000000] })).isSome = true :=
  ⟨List.forall_mem_singleton.mpr (by decide), by simp [CoreState.faulted, edges, running],
    List.forall_mem_singleton.mpr (by decide), by decide⟩
/-- TerminalStepChangesNothing, and TemperatureRise's second clause. -/
theorem witness_terminal :
    (loaded .halted 0x80000000).status = .halted ∧ (loaded .error 0xA0000000).status = .error := by decide
/-- OnlyResetLeavesTerminal, WidthNeverChanges: a step and a cell write from HALTED. -/
theorem witness_only_reset :
    (∀ planted, Move.host (.powerOn planted) ∉ [Move.step, Move.host (.writeCell 3 1 0)]) ∧
    (∀ words, Move.host (.loadProgram words) ∉ [Move.step, Move.host (.writeCell 3 1 0)]) ∧
    (runMoves [Move.step, Move.host (.writeCell 3 1 0)] (machine (loaded .halted 0x80000000))).isSome = true :=
  ⟨fun _ => by simp, fun _ => by simp, by decide⟩
/-- CycleCounted, StatusAfterStep: IDLE and RUNNING. -/
theorem witness_not_terminal : State.reset.core.status = .idle ∧ (loaded .running 0).status = .running := by decide
/-- FetchPastEndHalts, TemperatureRise's second clause: pc = L. -/
theorem witness_past_end :
    State.reset.core.status = .idle ∧ State.reset.core.program.length ≤ State.reset.core.pc.toNat ∧
    edges.program.length ≤ edges.pc.toNat := by decide
/-- StepRunsDecoded, TemperatureRise's first clause. -/
theorem witness_decoded :
    (loaded .idle 0x0800000A).status = .idle ∧
    (loaded .idle 0x0800000A).program[(loaded .idle 0x0800000A).pc.toNat]? = some 0x0800000A ∧
    decode16 0x0800000A = .ok (.mov 0 10) := by decide
/-- FatalPath. -/
theorem witness_malformed :
    (loaded .running 0xA0000000).status = .running ∧
    (loaded .running 0xA0000000).program[(loaded .running 0xA0000000).pc.toNat]? = some 0xA0000000 ∧
    decode16 0xA0000000 = .error .illegalOpcode := by decide
/-- AllZerosWordFaults: five all-zeros words, at the last of them. -/
theorem witness_all_zeros :
    (loaded .running 0).program = List.replicate 5 0 ∧ (loaded .running 0).pc.toNat < 5 := by decide
/-- IdleStepsAsRunning, PcAfterStep: each kind of next instruction, in a loadable program. -/
theorem witness_next_instr :
    (loaded .idle 0x0800000A).program.length ≤ 65535 ∧
    nextInstr (loaded .idle 0x0800000A) = some (.mov 0 10) ∧
    nextInstr (loaded .running 0x48000002) = some (.jmp 2) ∧
    nextInstr (loaded .running 0x58000007) = some (.jz 7) ∧
    nextInstr (loaded .running 0x80000000) = some .halt := by decide
/-- OneCellPerStep's second clause, and ZeroFlagWritersAndReader's fourth: no next instruction, or a MOV. -/
theorem witness_no_access :
    nextInstr State.reset.core = none ∧ nextInstr (loaded .idle 0x0800000A) = some (.mov 0 10) := by
  decide
/-- OneCellPerStep's first clause: a LOAD stores no value, and a cell other than the one it reads. -/
theorem witness_other_cell :
    storedValue (.load 0 1) edges = none ∧
    effectiveAddress (.storeReg 0 1) edges = some 1023 ∧ inRange (N := 16) 1023 = true ∧ 1022 ≠ (1023#16).toNat := by
  decide
/-- ReservedNonzeroExactly: a word with a legal OP and an allowed M. -/
theorem witness_reserved : opcodeLegal (N := 16) 0x1000000B = true ∧ modeLegal (N := 16) 0x1000000B = true := by decide
/-- The premise 12 ≤ N of DecodeEncode, WordIsOneInstructionOrMalformed, TableRowsMatchDecoder, ArithmeticWraps,
RangeCheckReadings, ResetInv and the assembler's statements, at its least N: the last MOV of that width. -/
theorem witness_least_width :
    12 ≤ 12 ∧ wellFormed 12 (.mov 7 4095) = true ∧ decode (encode 12 (.mov 7 4095)) = .ok (.mov 7 4095) := by decide
/-- WordBytesBigEndian: widths with a byte form. -/
theorem witness_byte_form : (16 + 16) % 8 = 0 ∧ (24 + 16) % 8 = 0 ∧ (12 + 16) % 8 ≠ 0 := by decide
/-- WordIsOneInstructionOrMalformed, TableRowsMatchDecoder: a word that decodes and its row. -/
theorem witness_row :
    decode16 0x0800000A = .ok (.mov 0 10) ∧ tableRow 16 (.mov 0 10) ∈ opcodeTable 16 ∧
    (tableRow 16 (.mov 0 10)).covers 0x0800000A = true := by decide
/-- OutputLineSignedDecimal: a value of each sign. -/
theorem witness_output :
    (Event.mk (N := 16) .output 9 30 0 0).kind = .output ∧ 0 ≤ (30#16).toInt ∧ (0xFFFF#16).toInt < 0 := by decide
/-- HiddenStateUnobservable: two states that differ in `IR`, `cycleCount` and a tick. -/
theorem witness_visibleEq :
    VisibleEq (N := 16) { edges with mem := ⟨[(3, ⟨7, 0⟩)]⟩ }
      { edges with ir := 1, cycleCount := 9, mem := ⟨[(3, ⟨7, 1⟩)]⟩ } where
  regs := rfl
  pc := rfl
  z := rfl
  status := rfl
  program := rfl
  values := fun a => by
    by_cases h : 3 = a <;> simp [Memory.read, Memory.lookup, h]
/-- ResetValues: a planted cell at the last index with the last value, and a program of the last word. -/
theorem witness_reset :
    (∀ p ∈ [(1023, 65535, (0 : Tick))], p.1 < 1024 ∧ p.2.1 < 2 ^ 16) ∧ [2 ^ 32 - 1].length ≤ 2 ^ 16 - 1 ∧
    (∀ w ∈ [2 ^ 32 - 1], w < 2 ^ (16 + 16)) := by decide
/-- PowerOnMemory: two entries for cell 3, the last of them with none after it, and cell 4 without an entry. -/
theorem witness_power_on (t : Tick) :
    (∀ p ∈ [(3, 1, t), (0, 5, t), (3, 2, t)], p.1 < 1024 ∧ p.2.1 < 2 ^ 16) ∧
    [(3, 1, t), (0, 5, t), (3, 2, t)] = [(3, 1, t), (0, 5, t)] ++ (3, 2, t) :: [] ∧
    (∀ p ∈ ([] : List (Nat × Nat × Tick)), p.1 ≠ 3) ∧ (∀ p ∈ [(3, 1, t), (0, 5, t), (3, 2, t)], p.1 ≠ 4) := by
  simp
/-- 20_memory R62, log 14: the planted values after power-on, by hand. -/
theorem test_power_on :
    (hostMove (.powerOn [(3, 1, 0), (0, 5, 0), (3, 2, 0)]) (machine edges)).bind
      (fun t => coreField 16 t (fun c => (c.memRead 3, c.memRead 0, c.mem.cells.length, c.program))) =
        some (2, 5, 2, []) := by decide
/-- StepKeepsInv, HostMoveKeepsInv, LastErrorCode: a state with the invariant, and its step and a host move. -/
theorem witness_inv :
    (machine { edges with temperature := 40 }).Inv ∧
    (after (step (machine { edges with temperature := 40 })) (fun t => t.status)) = some .halted ∧
    (hostMove (.writeCell 1023 1 0) (machine { edges with temperature := 40 })).isSome = true :=
  ⟨{ width := by decide
     core :=
      { memory := by decide
        length := by decide
        tempLow := by decide
        tempHigh := by decide
        errorSet := by decide
        irEmpty := fun _ => rfl
        precise := fun _ h => by cases h } }, by decide, by decide⟩
/-- LastErrorCode's second clause: a state with the invariant and status ERROR. -/
theorem witness_inv_error :
    CoreState.Inv (N := 16) { loaded .error 0xA0000000 with
      ir := 0xA0000000, irValid := true, lastError := some .illegalOpcode, temperature := 90 } where
  memory := by decide
  length := by decide
  tempLow := by decide
  tempHigh := by decide
  errorSet := by decide
  irEmpty := fun h => by cases h
  precise := fun code h => by
    cases h
    exact ⟨rfl, by decide, by decide⟩
/-- LoadReturnsLatestWrite: a host write, then a LOAD of that cell is next. -/
theorem witness_latest_write :
    (∀ planted, Move.host (.powerOn planted) ∉ [Move.host (.writeCell 0 7 0)]) ∧
    (runMoves [Move.host (.writeCell 0 7 0)] (machine (loaded .idle 0x62000001))).bind
      (fun t => coreField 16 t (fun c => (nextInstr c, decide ((c.readReg 1).toNat < 1024)))) =
        some (some (.load 2 1), true) ∧
    latestWrite [Move.host (.writeCell 0 7 0)] (machine (loaded .idle 0x62000001)) 0 = some 7 :=
  ⟨fun _ => by simp, by decide, by decide⟩
/-- HostStatusWrite, HostCellWrite: RUNNING, HALTED, and the last cell. -/
theorem witness_host :
    edges.status = .running ∧ (loaded .halted 0).status = .halted ∧ 1023 < 1024 := by decide
/-- LegacyMapping, LegacyRefusals, TaggedForms: operands at the ends of each range, inside and outside. -/
theorem witness_legacy :
    ((0 : Int) ≤ 7 ∧ (-32768 : Int) ≤ 32767 ∧ (8 : Int) ≤ 65535) ∧
    legacy .mov [7, -32768] = .ok 0x0F008000 ∧ legacy .mov [7, 32767] = .ok 0x0F007FFF ∧
    legacy .add [7, 7] = .ok 0x17000007 ∧ legacy .add [7, 8] = .ok 0x1F000008 ∧
    legacy .store [7, 8] = .ok 0x7F000008 ∧ legacy .store [7, 65535] = .ok 0x7F00FFFF ∧
    legacy .store [7, 65536] = .error .indexRange ∧ legacy .mov [7, 32768] = .error .immediateRange := by decide
/-- LegacyRefusals' last clause: a program with a refused instruction. -/
theorem witness_refused_program :
    legacyProgram 16 [⟨"", .halt, [], ""⟩, ⟨"", .jmp, [-1], ""⟩] = .error .indexRange := by decide
/-- LegacyWordsDecode. -/
theorem witness_legacy_word : legacyWord 16 ⟨"", .add, [0, 5], ""⟩ = .ok 0x10000005 := by decide

end Sys2Proof.Tests
end

section
/-! SUPPORT. What sequences of transitions keep: the induction over a sequence, said once, and the width N
(00_scope R7), which each kind of transition keeps. -/

namespace Sys2Proof.Machine

variable {N : Nat}

/-- A sequence of transitions runs by its first transition, then the rest from the state that one answers. -/
theorem runMoves_cons_eq_some {m : Move} {rest : List Move} {s t : State} :
    runMoves (m :: rest) s = some t ↔ ∃ u, move m s = some u ∧ runMoves rest u = some t := by
  cases hm : move m s <;> simp [runMoves, hm]

/-- What holds at the start and is kept by each transition of a sequence holds after the sequence. -/
theorem runMoves_keeps {P : State → Prop} {moves : List Move}
    (keeps : ∀ m ∈ moves, ∀ s t, P s → move m s = some t → P t) {s t : State} (hs : P s)
    (h : runMoves moves s = some t) : P t := by
  induction moves generalizing s with
  | nil =>
    cases h
    exact hs
  | cons m rest ih =>
    obtain ⟨u, hu, hrest⟩ := runMoves_cons_eq_some.mp h
    have hPu : P u := keeps m List.mem_cons_self s u hs hu
    exact ih (fun m' hm' => keeps m' (List.mem_cons_of_mem m hm')) hPu hrest

/-- Every step answers a next state, of the same width (40_cycle R142). -/
theorem step_completes (s : CoreState N) : ∃ t : CoreState N, step ⟨N, s⟩ = .next ⟨N, t⟩ := by
  obtain ⟨-, h⟩ | ⟨-, -, h⟩ | ⟨w, code, -, -, -, h⟩ | ⟨w, i, -, -, -, h⟩ := step_cases (s := s) rfl
  · exact ⟨_, h⟩
  · exact ⟨_, h⟩
  · exact ⟨_, h⟩
  · obtain ⟨t, ht⟩ := exec_completes i (s.countCycle.beginInstruction w)
    exact ⟨t, h.trans ht⟩

/-- A transition of a core of width N answers a core of width N. -/
theorem move_eq_mk {m : Move} {s : CoreState N} {o : State} (h : move m ⟨N, s⟩ = some o) :
    ∃ t : CoreState N, o = ⟨N, t⟩ := by
  obtain ⟨-, hstep⟩ | ⟨x, -, hhost⟩ := move_cases h
  · obtain ⟨t, ht⟩ := step_completes s
    rw [ht] at hstep
    cases hstep
    exact ⟨t, rfl⟩
  · obtain ⟨t, rfl, -⟩ := hostMove_cases hhost
    exact ⟨t, rfl⟩

theorem move_width {m : Move} {s t : State} (h : move m s = some t) : t.width = s.width := by
  obtain ⟨_, rfl⟩ := move_eq_mk h
  rfl

/-- Settles O32: every transition keeps the width, so every sequence of them does. -/
theorem widthNeverChanges : Obligations.WidthNeverChanges := by
  intro moves s t h
  have keeps : ∀ m ∈ moves, ∀ u v : State, u.width = s.width → move m u = some v → v.width = s.width :=
    fun _ _ _ _ hu hm => (move_width hm).trans hu
  exact runMoves_keeps keeps rfl h

end Sys2Proof.Machine
end

section
/-! SUPPORT. What one step does, case by case of 40_cycle R138, and what every instruction does to the fields that
the statements about the state speak of: its control state, its status, its memory and its event. -/

namespace Sys2Proof.Machine

variable {N : Nat}

/-! ### The four cases of a step, as equations -/

/-- A step on a terminal status is a no-op (40_cycle R121). -/
theorem step_of_terminal {s : CoreState N} (h : s.status.terminal = true) : step ⟨N, s⟩ = .next ⟨N, s⟩ := by
  simp [step, h]

/-- Past the end of the program a step halts (40_cycle R124). -/
theorem step_of_pastEnd {s : CoreState N} (h : s.status.terminal = false) (hf : s.fetch = none) :
    step ⟨N, s⟩ = .next ⟨N, s.countCycle.setHalted⟩ := by
  simp [step, h, hf]

/-- A malformed word takes the fatal path (40_cycle R134). -/
theorem step_of_malformed {s : CoreState N} {w : InstrWord N} {code : Malformed} (h : s.status.terminal = false)
    (hf : s.fetch = some w) (hd : decode w = .error code) :
    step ⟨N, s⟩ = .next ⟨N, (s.countCycle.beginInstruction w).fatal code⟩ := by
  simp [step, h, hf, hd]

/-- A decoded instruction is executed after the phases before it (40_cycle R133). -/
theorem step_of_decoded {s : CoreState N} {w : InstrWord N} {i : Instr} (h : s.status.terminal = false)
    (hf : s.fetch = some w) (hd : decode w = .ok i) :
    step ⟨N, s⟩ = exec i ⟨N, s.countCycle.beginInstruction w⟩ := by
  simp [step, h, hf, hd]

/-- The next instruction is the decoded word at `pc` of a core that still runs. -/
theorem nextInstr_eq_some_iff {s : CoreState N} {i : Instr} :
    nextInstr s = some i ↔ s.status.terminal = false ∧ ∃ w, s.fetch = some w ∧ decode w = .ok i := by
  cases ht : s.status.terminal with
  | true => simp [nextInstr, ht]
  | false =>
    cases hf : s.fetch with
    | none => simp [nextInstr, ht, hf]
    | some w => cases hd : decode w <;> simp [nextInstr, ht, hf, hd]

/-! ### What every instruction leaves, and what it does to status, memory and log -/

/-- No instruction writes the control state. -/
theorem exec_sameControl {i : Instr} {s t : CoreState N} (h : exec i ⟨N, s⟩ = .next ⟨N, t⟩) : SameControl s t := by
  cases i with
  | _ => cases h; constructor <;> simp

/-- Only HALT writes `status` (10_state R33, 44_system R202). -/
theorem exec_status {i : Instr} {s t : CoreState N} (h : exec i ⟨N, s⟩ = .next ⟨N, t⟩) :
    t.status = if i = .halt then .halted else s.status := by
  cases i with
  | halt => cases h; rfl
  | _ => cases h; simp

theorem loadFrom_mem_wf (d : Reg) (ea : Word N) {s : CoreState N} (h : s.mem.wf) : (loadFrom d ea s).mem.wf := by
  rw [loadFrom_mem]
  split
  · exact Memory.write_wf _ h (lt_of_inRange ‹_›)
  · exact h

theorem storeTo_mem_wf (ea v : Word N) {s : CoreState N} (h : s.mem.wf) : (storeTo ea v s).mem.wf := by
  rw [storeTo_mem]
  split
  · exact Memory.write_wf _ h (lt_of_inRange ‹_›)
  · exact h

/-- Every instruction keeps the canonical form of data memory (20_memory R50). -/
theorem exec_mem_wf {i : Instr} {s t : CoreState N} (h : exec i ⟨N, s⟩ = .next ⟨N, t⟩) (hs : s.mem.wf) :
    t.mem.wf := by
  cases i with
  | load d r => cases h; exact loadFrom_mem_wf d _ hs
  | storeReg r a => cases h; exact storeTo_mem_wf _ _ hs
  | storeAbs r addr => cases h; exact storeTo_mem_wf _ _ hs
  | _ => cases h; exact hs

/-- CMP's event carries 1 exactly when its operands are equal (40_cycle R129). -/
theorem compareWith_log (a : Reg) (x : Word N) (s : CoreState N) :
    (compareWith a x s).log = s.log ++ [⟨.trace, 3, s.readReg a, x, if s.readReg a = x then 1 else 0⟩] := by
  simp [compareWith, traceEvent, equalFlag, flagAsWord_eq, OpCode.number]

/-- Every instruction puts on the trace port the event of the table of 40_cycle R129. -/
theorem exec_log {i : Instr} {s t : CoreState N} (h : exec i ⟨N, s⟩ = .next ⟨N, t⟩) :
    t.log = s.log ++ (instrEvent i s).toList := by
  cases i with
  | cmpReg a r => cases h; exact compareWith_log a _ s
  | cmpImm a v => cases h; exact compareWith_log a _ s
  | load d r => cases h; exact loadFrom_log d _ s
  | storeReg r a => cases h; exact storeTo_log _ _ s
  | storeAbs r addr => cases h; exact storeTo_log _ _ s
  | _ => cases h; rfl

/-- Settles O43: past the end only HALTED, on a malformed word only ERROR, else RUNNING unless HALT ran. -/
theorem statusAfterStep : Obligations.StatusAfterStep := by
  intro N s hs
  have ht : s.status.terminal = false := (not_terminal_iff _).mpr hs
  rw [← CoreState.fetch_eq_none_iff, ← CoreState.fetch]
  cases hf : s.fetch with
  | none => exact ⟨_, step_of_pastEnd ht hf, by simp⟩
  | some w =>
    cases hd : decode w with
    | error code => exact ⟨_, step_of_malformed ht hf hd, by simp [nextInstr_eq_some_iff, hf, hd]⟩
    | ok i =>
      obtain ⟨t, hx⟩ := exec_completes i (s.countCycle.beginInstruction w)
      refine ⟨t, (step_of_decoded ht hf hd).trans hx, ?_⟩
      have hst := exec_status hx
      by_cases hi : i = .halt <;> simp [hst, hi, nextInstr_eq_some_iff, ht, hf, hd]

end Sys2Proof.Machine
end

section
/-! SUPPORT. MOV, ADD, SUB and CMP (41_alu R162 to R165): their results and frames, and two's complement arithmetic
against the integers (41_alu R160). -/

namespace Sys2Proof.Machine

variable {N : Nat}

/-! ### Frames -/

/-- Data memory that is equal as data reads the same. -/
theorem sameMemory_of_mem_eq {s t : CoreState N} (h : t.mem = s.mem) : SameMemory s t := by
  intro a
  rw [h]

/-- A state whose registers are those of one register write reads as before in every other register. -/
theorem sameRegsBut_of_regs_eq {d : Reg} {v : Word N} {s t : CoreState N} (h : t.regs = (s.writeReg d v).regs) :
    SameRegsBut d s t := by
  intro r hr
  rw [← CoreState.readReg_writeReg_other s v hr, CoreState.readReg, h, CoreState.readReg]

/-! ### What each effect computes -/

@[simp] theorem moveTo_readReg (d : Reg) (v : Word N) (s : CoreState N) : (moveTo d v s).readReg d = v :=
  CoreState.readReg_writeReg_same s d v

@[simp] theorem addTo_readReg (d : Reg) (v : Word N) (s : CoreState N) :
    (addTo d v s).readReg d = s.readReg d + v :=
  CoreState.readReg_writeReg_same s d _

@[simp] theorem subtractFrom_readReg (d : Reg) (v : Word N) (s : CoreState N) :
    (subtractFrom d v s).readReg d = s.readReg d - v :=
  CoreState.readReg_writeReg_same s d _

/-- SUB sets Z exactly when its result is 0 (41_alu R164). -/
theorem subtractFrom_z (d : Reg) (v : Word N) (s : CoreState N) :
    (subtractFrom d v s).z = true ↔ s.readReg d - v = 0 :=
  beq_iff_eq

/-- CMP sets Z exactly when the operands are equal bit for bit (41_alu R165). -/
theorem compareWith_z (a : Reg) (v : Word N) (s : CoreState N) : (compareWith a v s).z = true ↔ s.readReg a = v :=
  beq_iff_eq

/-- An optional TRACE leaves a log as it was, or adds one TRACE of the given op (40_cycle R128). -/
theorem log_append_optTrace_cases (l : List (Event N)) (op : BitVec 4) (n : Nat) :
    l ++ (optTrace N op n).toList = l ∨ ∃ a b c, l ++ (optTrace N op n).toList = l ++ [⟨.trace, op, a, b, c⟩] := by
  obtain htr | ⟨a, b, c, htr⟩ := optTrace_cases N op n
  · exact .inl (by simp [htr])
  · exact .inr ⟨a, b, c, by simp [htr]⟩

/-- CMP's event carries the flag it writes (41_alu R165). -/
theorem compareWith_log_flag (a : Reg) (v : Word N) (s : CoreState N) :
    (compareWith a v s).log =
      s.log ++ [⟨.trace, 3, s.readReg a, v, if (compareWith a v s).z then 1 else 0⟩] := by
  simp [compareWith_log, compareWith_z]

section running
variable {s : CoreState N} (h : s.status = .running)
include h

theorem moveTo_pc (d : Reg) (v : Word N) : (moveTo d v s).pc = s.pc + 1 := if_pos h
theorem addTo_pc (d : Reg) (v : Word N) : (addTo d v s).pc = s.pc + 1 := if_pos h
theorem subtractFrom_pc (d : Reg) (v : Word N) : (subtractFrom d v s).pc = s.pc + 1 := if_pos h
theorem compareWith_pc (a : Reg) (v : Word N) : (compareWith a v s).pc = s.pc + 1 := if_pos h

end running

/-! ### An immediate reads as the field it came from (30_encoding R84) -/

theorem exec_mov_toNat (d : Reg) (v : Word N) (s : CoreState N) :
    exec (.mov d v.toNat) ⟨N, s⟩ = .next ⟨N, moveTo d v s⟩ := by
  simp [exec, execMov]

theorem exec_addImm_toNat (d : Reg) (v : Word N) (s : CoreState N) :
    exec (.addImm d v.toNat) ⟨N, s⟩ = .next ⟨N, addTo d v s⟩ := by
  simp [exec, execAddImm]

theorem exec_cmpImm_toNat (a : Reg) (v : Word N) (s : CoreState N) :
    exec (.cmpImm a v.toNat) ⟨N, s⟩ = .next ⟨N, compareWith a v s⟩ := by
  simp [exec, execCmpImm]

/-! ### Two's complement and the integers -/

/-- An integer is its own residue modulo 2^N exactly in the signed range of N bits. -/
theorem bmod_two_pow_eq_self_iff (hN : 0 < N) (z : Int) :
    z.bmod (2 ^ N) = z ↔ -2 ^ (N - 1) ≤ z ∧ z ≤ 2 ^ (N - 1) - 1 := by
  rw [← BitVec.toInt_ofInt, Int.le_sub_one_iff]
  constructor
  · intro h
    exact ⟨h ▸ BitVec.le_toInt _, h ▸ BitVec.toInt_lt⟩
  · rintro ⟨hlow, hhigh⟩
    exact BitVec.toInt_ofInt_eq_self hN hlow hhigh

theorem toInt_add_eq_iff (hN : 0 < N) (x y : Word N) :
    (x + y).toInt = x.toInt + y.toInt ↔
      -2 ^ (N - 1) ≤ x.toInt + y.toInt ∧ x.toInt + y.toInt ≤ 2 ^ (N - 1) - 1 := by
  rw [BitVec.toInt_add, bmod_two_pow_eq_self_iff hN]

theorem toInt_sub_eq_iff (hN : 0 < N) (x y : Word N) :
    (x - y).toInt = x.toInt - y.toInt ↔
      -2 ^ (N - 1) ≤ x.toInt - y.toInt ∧ x.toInt - y.toInt ≤ 2 ^ (N - 1) - 1 := by
  rw [BitVec.toInt_sub, bmod_two_pow_eq_self_iff hN]

theorem toNat_sub_mod (x y : Word N) : (x - y).toNat = (x.toNat + (2 ^ N - y.toNat)) % 2 ^ N := by
  rw [BitVec.toNat_sub, Nat.add_comm]

/-! ### The statements -/

/-- Settles O12: MOV writes one register, `pc` and the log. -/
theorem movResult : Obligations.MovResult := by
  intro N d v s h
  have hexec := exec_mov_toNat d v s
  exact ⟨_, hexec, moveTo_readReg d v s, sameRegsBut_of_regs_eq rfl, moveTo_pc h d v, rfl, h, rfl,
    exec_sameControl hexec, sameMemory_of_mem_eq rfl⟩

/-- Settles O13: both forms have the one effect `addTo`, which reads its operands before it writes. -/
theorem addResult : Obligations.AddResult := by
  refine ⟨fun N d r s h => ?_, fun N d v s h => ?_⟩
  · have hexec : exec (.addReg d r) ⟨N, s⟩ = .next ⟨N, addTo d (s.readReg r) s⟩ := rfl
    exact ⟨_, hexec, addTo_readReg d _ s, sameRegsBut_of_regs_eq rfl, addTo_pc h d _, rfl, h, rfl,
      exec_sameControl hexec, sameMemory_of_mem_eq rfl⟩
  · have hexec := exec_addImm_toNat d v s
    exact ⟨_, hexec, addTo_readReg d v s, sameRegsBut_of_regs_eq rfl, addTo_pc h d v, rfl, h, rfl,
      exec_sameControl hexec, sameMemory_of_mem_eq rfl⟩

/-- Settles O14: SUB writes one register, Z, `pc` and at most one TRACE, the draw `tr`. -/
theorem subResult : Obligations.SubResult := by
  intro N d r s h
  have hexec : exec (.sub d r) ⟨N, s⟩ = .next ⟨N, subtractFrom d (s.readReg r) s⟩ := rfl
  exact ⟨_, hexec, subtractFrom_readReg d _ s, sameRegsBut_of_regs_eq rfl, subtractFrom_z d _ s,
    subtractFrom_pc h d _, h, log_append_optTrace_cases s.log 2 s.draws, exec_sameControl hexec,
    sameMemory_of_mem_eq rfl⟩

/-- Settles O15: both forms have the one effect `compareWith`, which writes Z, `pc` and the log. -/
theorem cmpResult : Obligations.CmpResult := by
  refine ⟨fun N a r s h => ?_, fun N a v s h => ?_⟩
  · have hexec : exec (.cmpReg a r) ⟨N, s⟩ = .next ⟨N, compareWith a (s.readReg r) s⟩ := rfl
    exact ⟨_, hexec, compareWith_z a _ s, fun _ => rfl, compareWith_pc h a _, h, compareWith_log_flag a _ s,
      exec_sameControl hexec, sameMemory_of_mem_eq rfl⟩
  · have hexec := exec_cmpImm_toNat a v s
    exact ⟨_, hexec, compareWith_z a v s, fun _ => rfl, compareWith_pc h a v, h, compareWith_log_flag a v s,
      exec_sameControl hexec, sameMemory_of_mem_eq rfl⟩

/-- Settles O16: a sum or difference of N bits is the integer one modulo 2^N, which is the integer itself exactly in
the signed range. -/
theorem arithmeticWraps : Obligations.ArithmeticWraps := by
  refine ⟨fun N d r s hN => ⟨_, rfl, ?_⟩, fun N d v s hN => ⟨_, exec_addImm_toNat d v s, ?_⟩,
    fun N d r s hN => ⟨_, rfl, ?_⟩⟩
  · rw [addTo_readReg]
    exact ⟨BitVec.toNat_add _ _, toInt_add_eq_iff (by omega) _ _⟩
  · rw [addTo_readReg]
    exact ⟨BitVec.toNat_add _ _, toInt_add_eq_iff (by omega) _ _⟩
  · rw [subtractFrom_readReg]
    exact ⟨toNat_sub_mod _ _, toInt_sub_eq_iff (by omega) _ _⟩

end Sys2Proof.Machine
end

section
/-! SUPPORT. The invariant of every core: each phase of a step keeps it, so every step does; what it says of
`lastError`; and the host's write of `status` (10_state R33, R34). -/

namespace Sys2Proof.Machine

variable {N : Nat}

/-! ### The temperature's clamp (40_cycle R131) -/

theorem raiseTemperature_le (t delta : Rat) : raiseTemperature t delta ≤ Config.tempMax := by
  unfold raiseTemperature
  split
  · assumption
  · exact le_refl _

/-- A rise of at least 0 never leaves the clamp's range at the low end. -/
theorem le_raiseTemperature {t delta : Rat} (ht : t ≤ Config.tempMax) (hd : 0 ≤ delta) :
    t ≤ raiseTemperature t delta := by
  unfold raiseTemperature
  split
  · exact le_add_of_nonneg_right hd
  · exact ht

/-! ### Each phase keeps the invariant -/

/-- Off ERROR there is no error code (10_state R34). -/
theorem CoreState.Inv.lastError_eq_none {s : CoreState N} (h : s.Inv) (hs : s.status.terminal = false) :
    s.lastError = none := by
  rw [h.errorSet]
  intro he
  simp [he] at hs

theorem CoreState.Inv.countCycle {s : CoreState N} (h : s.Inv) : s.countCycle.Inv := { h with }

theorem CoreState.Inv.beginInstruction {s : CoreState N} (h : s.Inv) (he : s.lastError = none) (w : InstrWord N) :
    (s.beginInstruction w).Inv where
  memory := h.memory
  length := h.length
  tempLow := le_trans h.tempLow (le_raiseTemperature h.tempHigh (Config.delta_bounds _).1)
  tempHigh := raiseTemperature_le _ _
  errorSet := by simp [he]
  irEmpty := by simp
  precise := by simp [he]

theorem CoreState.Inv.setHalted {s : CoreState N} (h : s.Inv) (he : s.lastError = none) : s.setHalted.Inv :=
  { h with
    errorSet := by simp [he]
    precise := by simp [he] }

/-- The fatal path sets `lastError` to the code of the malformed word that stands in IR and at `pc`. -/
theorem CoreState.Inv.fatal {s : CoreState N} (h : s.Inv) {code : Malformed} (hv : s.irValid = true)
    (hd : decode s.ir = .error code) (hf : s.fetch = some s.ir) : (s.fatal code).Inv :=
  { h with
    errorSet := by simp
    precise := by
      intro c hc
      cases hc
      exact ⟨hv, hd, hf⟩ }

/-- An instruction keeps the invariant: it writes no control state, keeps data memory canonical, and never sets
ERROR. -/
theorem CoreState.Inv.exec {i : Instr} {s t : CoreState N} (h : s.Inv) (he : s.lastError = none)
    (hx : Machine.exec i ⟨N, s⟩ = .next ⟨N, t⟩) : t.Inv := by
  have c := exec_sameControl hx
  have hs : s.status ≠ .error := h.errorSet.mp he
  have ht : t.lastError = none := c.lastError.trans he
  refine ⟨exec_mem_wf hx h.memory, ?_, ?_, ?_, ?_, ?_, ?_⟩
  · rw [c.program]; exact h.length
  · rw [c.temperature]; exact h.tempLow
  · rw [c.temperature]; exact h.tempHigh
  · rw [exec_status hx]
    split <;> simp [ht, hs]
  · rw [c.irValid, c.ir]; exact h.irEmpty
  · simp [ht]

/-- Every step of a core keeps its invariant. -/
theorem CoreState.Inv.step {s t : CoreState N} (h : s.Inv) (hstep : Machine.step ⟨N, s⟩ = .next ⟨N, t⟩) : t.Inv := by
  obtain ⟨-, ho⟩ | ⟨hs, -, ho⟩ | ⟨w, code, hs, hf, hd, ho⟩ | ⟨w, i, hs, -, -, ho⟩ := step_cases hstep
  · cases ho
    exact h
  · cases ho
    exact h.countCycle.setHalted (h.lastError_eq_none hs)
  · cases ho
    exact (h.countCycle.beginInstruction (h.lastError_eq_none hs) w).fatal rfl hd hf
  · exact (h.countCycle.beginInstruction (h.lastError_eq_none hs) w).exec (h.lastError_eq_none hs) ho.symm

/-- Settles O50: each phase of a step keeps the invariant, and no step changes the width. -/
theorem stepKeepsInv : Obligations.StepKeepsInv := by
  rintro ⟨N, s⟩ t h hstep
  obtain ⟨t, ht⟩ := step_completes s
  cases ht.symm.trans hstep
  exact ⟨h.width, h.core.step hstep⟩

/-- The three codes are not 0, the code of no error (10_state R32). -/
theorem Malformed.code_ne_zero (code : Malformed) : code.code ≠ 0 := by
  cases code <;> decide

/-- Settles O52: the invariant sets `lastError` exactly on ERROR, to the code of the word in IR. -/
theorem CoreState.Inv.lastErrorCode : Obligations.LastErrorCode := by
  intro N s h
  refine ⟨fun hs => ?_, fun hs => ?_⟩
  · show Machine.lastErrorCode s.lastError = 0
    rw [h.errorSet.mpr hs]
    rfl
  · obtain ⟨code, hc⟩ : ∃ code, s.lastError = some code :=
      Option.ne_none_iff_exists'.mp fun hn => h.errorSet.mp hn hs
    obtain ⟨-, hd, -⟩ := h.precise code hc
    have hobs : s.observe.lastError = code.code := congrArg Machine.lastErrorCode hc
    exact ⟨code, hd, hobs, hobs ▸ Malformed.code_ne_zero code⟩

/-! ### The host's write of `status` -/

/-- A step from IDLE and a step from RUNNING do the same: each phase that follows writes `status` (10_state R33). -/
theorem step_setStatus {s : CoreState N} {st : Status} (hst : st.terminal = false) (hs : s.status.terminal = false) :
    step ⟨N, { s with status := st }⟩ = step ⟨N, s⟩ := by
  cases hf : s.fetch with
  | none => rw [step_of_pastEnd hs hf, step_of_pastEnd (s := { s with status := st }) hst hf]; rfl
  | some w =>
    cases hd : decode w with
    | error code =>
      rw [step_of_malformed hs hf hd, step_of_malformed (s := { s with status := st }) hst hf hd]; rfl
    | ok i => rw [step_of_decoded hs hf hd, step_of_decoded (s := { s with status := st }) hst hf hd]; rfl

/-- Settles O54: the host writes only IDLE and RUNNING, only over IDLE and RUNNING, and no step tells these apart. -/
theorem hostStatusWrite : Obligations.HostStatusWrite := by
  refine fun N s => ⟨fun st hst => ⟨fun hs => ?_, fun hs => ?_⟩, rfl, rfl⟩
  · have hst := (not_terminal_iff st).mpr hst
    have hs := (not_terminal_iff s.status).mpr hs
    exact ⟨by simp [hostMove, hostSetStatus, hst, hs], step_setStatus hst hs⟩
  · have hst := (not_terminal_iff st).mpr hst
    have hs := (terminal_iff s.status).mpr hs
    simp [hostMove, hostSetStatus, hst, hs]

end Sys2Proof.Machine
end

section
/-! SUPPORT. What a program cannot observe (10_state R39): every phase of a step takes two cores that a program cannot
tell apart to two such cores, and reports the same events of both. -/

namespace Sys2Proof.Machine

variable {N : Nat}

namespace VisibleEq

variable {s s' : CoreState N} (h : VisibleEq s s')
include h

/-! ### What a program reads is equal -/

theorem readReg (r : Reg) : s.readReg r = s'.readReg r := by
  rw [CoreState.readReg, h.regs, CoreState.readReg]

theorem memRead (a : Nat) : s.memRead a = s'.memRead a := h.values a

theorem nextPc : s.nextPc = s'.nextPc := by
  rw [CoreState.nextPc, h.pc, CoreState.nextPc]

theorem fetch : s.fetch = s'.fetch := by
  rw [CoreState.fetch, h.program, h.pc, CoreState.fetch]

/-! ### Each operation over the state keeps it -/

theorem writeReg (r : Reg) (v : Word N) : VisibleEq (s.writeReg r v) (s'.writeReg r v) :=
  { h with regs := by simp [h.regs] }

theorem setZ (b : Bool) : VisibleEq (s.setZ b) (s'.setZ b) := { h with z := rfl }

theorem emit (e e' : Event N) : VisibleEq (s.emit e) (s'.emit e') := { h with }

theorem mayTrace (op op' : BitVec 4) : VisibleEq (s.mayTrace op) (s'.mayTrace op') := { h with }

theorem advance (npc : Word N) : VisibleEq (s.advance npc) (s'.advance npc) :=
  { h with pc := by simp [h.status, h.pc] }

/-- Whatever the ticks written, the values read the same. -/
theorem tickWrite (a : Nat) (k k' : Tick) : VisibleEq (s.tickWrite a k) (s'.tickWrite a k') :=
  { h with
    values := by
      intro b
      rw [CoreState.tickWrite_read, CoreState.tickWrite_read]
      split <;> exact h.values _ }

theorem memWrite (a : Nat) (v : Word N) : VisibleEq (s.memWrite a v) (s'.memWrite a v) :=
  { h with
    values := by
      intro b
      rw [CoreState.memWrite_read, CoreState.memWrite_read]
      split
      · rfl
      · exact h.values b }

theorem setHalted : VisibleEq s.setHalted s'.setHalted := { h with status := rfl }

theorem countCycle : VisibleEq s.countCycle s'.countCycle := { h with }

theorem beginInstruction (w : InstrWord N) : VisibleEq (s.beginInstruction w) (s'.beginInstruction w) :=
  { h with status := rfl }

theorem fatal (code : Malformed) : VisibleEq (s.fatal code) (s'.fatal code) := { h with status := rfl }

/-! ### Each effect keeps it -/

theorem moveTo (d : Reg) (v : Word N) : VisibleEq (moveTo d v s) (moveTo d v s') := by
  rw [Machine.moveTo, Machine.moveTo, h.nextPc]
  exact ((h.writeReg d v).emit _ _).advance _

theorem addTo (d : Reg) (v : Word N) : VisibleEq (addTo d v s) (addTo d v s') := by
  rw [Machine.addTo, Machine.addTo, h.readReg d, h.nextPc]
  exact ((h.writeReg d _).emit _ _).advance _

theorem subtractFrom (d : Reg) (v : Word N) : VisibleEq (subtractFrom d v s) (subtractFrom d v s') := by
  rw [Machine.subtractFrom, Machine.subtractFrom, h.readReg d, h.nextPc]
  exact (((h.writeReg d _).setZ _).mayTrace _ _).advance _

theorem compareWith (a : Reg) (v : Word N) : VisibleEq (compareWith a v s) (compareWith a v s') := by
  rw [Machine.compareWith, Machine.compareWith, h.readReg a, h.nextPc]
  exact ((h.setZ _).emit _ _).advance _

theorem branchTo (op : OpCode) (npc : Word N) : VisibleEq (branchTo op npc s) (branchTo op npc s') :=
  (h.mayTrace _ _).advance npc

theorem loadFrom (d : Reg) (ea : Word N) : VisibleEq (loadFrom d ea s) (loadFrom d ea s') := by
  cases hin : inRange ea with
  | true =>
    rw [loadFrom_inRange d s hin, loadFrom_inRange d s' hin, h.memRead]
    exact ((h.writeReg d _).tickWrite _ _ _).mayTrace _ _
  | false =>
    rw [loadFrom_outOfRange d s hin, loadFrom_outOfRange d s' hin]
    exact h.emit _ _

theorem storeTo (ea v : Word N) : VisibleEq (storeTo ea v s) (storeTo ea v s') := by
  cases hin : inRange ea with
  | true =>
    rw [storeTo_inRange v s hin, storeTo_inRange v s' hin]
    exact ((h.memWrite _ v).tickWrite _ _ _).mayTrace _ _
  | false =>
    rw [storeTo_outOfRange v s hin, storeTo_outOfRange v s' hin]
    exact h

end VisibleEq

/-- Every instruction takes two cores a program cannot tell apart to two such cores: its operands are equal in both,
and its effect keeps the relation. -/
theorem VisibleEq.exec {i : Instr} {s s' t t' : CoreState N} (h : VisibleEq s s')
    (ht : Machine.exec i ⟨N, s⟩ = .next ⟨N, t⟩) (ht' : Machine.exec i ⟨N, s'⟩ = .next ⟨N, t'⟩) : VisibleEq t t' := by
  cases i with
  | mov d v => cases ht; cases ht'; exact h.moveTo d _
  | addReg d r =>
    cases ht; cases ht'
    rw [registerOperand, registerOperand, h.readReg r]
    exact h.addTo d _
  | addImm d v => cases ht; cases ht'; exact h.addTo d _
  | sub d r =>
    cases ht; cases ht'
    rw [registerOperand, registerOperand, h.readReg r]
    exact h.subtractFrom d _
  | cmpReg a r =>
    cases ht; cases ht'
    rw [registerOperand, registerOperand, h.readReg r]
    exact h.compareWith a _
  | cmpImm a v => cases ht; cases ht'; exact h.compareWith a _
  | jmp x => cases ht; cases ht'; exact h.branchTo _ _
  | jz x =>
    cases ht; cases ht'
    rw [h.z, h.nextPc]
    exact h.branchTo _ _
  | load d r =>
    cases ht; cases ht'
    rw [indirectAddress, indirectAddress, h.readReg r, h.nextPc]
    exact (h.loadFrom d _).advance _
  | storeReg r a =>
    cases ht; cases ht'
    rw [indirectAddress, indirectAddress, h.readReg a, h.readReg r, h.nextPc]
    exact (h.storeTo _ _).advance _
  | storeAbs r addr =>
    cases ht; cases ht'
    rw [h.readReg r, h.nextPc]
    exact (h.storeTo _ _).advance _
  | halt =>
    cases ht; cases ht'
    rw [h.nextPc]
    exact (h.setHalted.emit _ _).advance _
  | print r =>
    cases ht; cases ht'
    rw [h.nextPc]
    exact (h.emit _ _).advance _

/-! ### The events a program can cause -/

/-- The optional TRACE is none of the reported events, whatever its draw (40_cycle R128). -/
@[simp] theorem reported_optTrace (op : BitVec 4) (n : Nat) : reported (optTrace N op n).toList = [] := by
  obtain h | ⟨a, b, c, h⟩ := optTrace_cases N op n <;> simp [h, reported]

/-- An instruction's reported event depends on what a program can observe alone. -/
theorem VisibleEq.reported_instrEvent {s s' : CoreState N} (h : VisibleEq s s') (i : Instr) :
    reported (instrEvent i s).toList = reported (instrEvent i s').toList := by
  cases i with
  | load d r =>
    simp only [instrEvent, h.readReg r]
    split <;> simp
  | storeReg r a =>
    simp only [instrEvent, h.readReg a]
    split <;> simp
  | storeAbs r addr =>
    simp only [instrEvent]
    split <;> simp
  | print r => simp only [instrEvent, h.readReg r]
  | sub d r => simp [instrEvent]
  | jmp x => simp [instrEvent]
  | jz x => simp [instrEvent]
  | _ => rfl

/-- Settles O46: both cores take the same one of the four cases of a step, with the same word, and each phase of it
keeps the relation. -/
theorem hiddenStateUnobservable : Obligations.HiddenStateUnobservable := by
  intro N s s' h
  cases hs : s.status.terminal with
  | true =>
    exact ⟨s, s', step_of_terminal hs, step_of_terminal (h.status ▸ hs), h, [], [], by simp⟩
  | false =>
    have hs' : s'.status.terminal = false := h.status ▸ hs
    cases hf : s.fetch with
    | none =>
      have hf' : s'.fetch = none := h.fetch ▸ hf
      exact ⟨_, _, step_of_pastEnd hs hf, step_of_pastEnd hs' hf', h.countCycle.setHalted, [], [], by simp⟩
    | some w =>
      have hf' : s'.fetch = some w := h.fetch ▸ hf
      have hbegin := h.countCycle.beginInstruction w
      cases hd : decode w with
      | error code =>
        exact ⟨_, _, step_of_malformed hs hf hd, step_of_malformed hs' hf' hd, hbegin.fatal code, _, _,
          CoreState.fatal_log _ _, CoreState.fatal_log _ _, by simp⟩
      | ok i =>
        obtain ⟨t, ht⟩ := exec_completes i (s.countCycle.beginInstruction w)
        obtain ⟨t', ht'⟩ := exec_completes i (s'.countCycle.beginInstruction w)
        exact ⟨t, t', (step_of_decoded hs hf hd).trans ht, (step_of_decoded hs' hf' hd).trans ht',
          hbegin.exec ht ht', _, _, (exec_log ht :), (exec_log ht' :), hbegin.reported_instrEvent i⟩

end Sys2Proof.Machine
end

section
/-! SUPPORT. Words as bytes, for tools (20_memory R58): reading the first bytes of a word big-endian gives the word's
high bits. -/

namespace Sys2Proof

variable {N : Nat}

/-- Byte `k` of a word, counted from the most significant: bits W-8k-1..W-8k-8 (20_memory R58). -/
def byteAt (w : InstrWord N) (k : Nat) : BitVec 8 := w.extractLsb' (N + 16 - 8 * (k + 1)) 8

theorem bytesOfWord_eq (w : InstrWord N) (h : (N + 16) % 8 = 0) :
    bytesOfWord w = some ((List.range ((N + 16) / 8)).map (byteAt w)) :=
  if_pos h

theorem byteAt_toNat (w : InstrWord N) (k : Nat) :
    (byteAt w k).toNat = w.toNat / 2 ^ (N + 16 - 8 * (k + 1)) % 256 := by
  rw [byteAt, BitVec.extractLsb'_toNat, Nat.shiftRight_eq_div_pow]

theorem bytesValue_append (acc : Nat) (l l' : List (BitVec 8)) :
    bytesValue acc (l ++ l') = bytesValue (bytesValue acc l) l' := by
  induction l generalizing acc with
  | nil => rfl
  | cons b rest ih => exact ih _

/-- The first `j` bytes of a word spell its high `8 * j` bits. -/
theorem bytesValue_firstBytes (w : InstrWord N) {j : Nat} (hj : 8 * j ≤ N + 16) :
    bytesValue 0 ((List.range j).map (byteAt w)) = w.toNat / 2 ^ (N + 16 - 8 * j) := by
  induction j with
  | zero => exact (Nat.div_eq_of_lt w.isLt).symm
  | succ j ih =>
    have hpow : 2 ^ (N + 16 - 8 * j) = 2 ^ (N + 16 - 8 * (j + 1)) * 256 := by
      rw [show N + 16 - 8 * j = N + 16 - 8 * (j + 1) + 8 by omega, Nat.pow_add]
    rw [List.range_succ, List.map_append, bytesValue_append, ih (by omega), hpow, ← Nat.div_div_eq_div_mul]
    simp only [List.map_cons, List.map_nil, bytesValue, byteAt_toNat]
    omega

/-- All bytes of a word spell it. -/
theorem wordOfBytes_bytes (w : InstrWord N) (h : (N + 16) % 8 = 0) :
    wordOfBytes N ((List.range ((N + 16) / 8)).map (byteAt w)) = some w := by
  have hlen : (N + 16) / 8 * 8 = N + 16 := by omega
  have hvalue := bytesValue_firstBytes w (j := (N + 16) / 8) (by omega)
  rw [Nat.mul_comm, hlen, Nat.sub_self, Nat.pow_zero, Nat.div_one] at hvalue
  rw [wordOfBytes, if_pos (by simpa using hlen), hvalue, BitVec.ofNat_toNat, BitVec.setWidth_eq]

/-- A word of a width with a byte form has a byte list with every byte in its place, which spells the word. -/
theorem bytesOfWord_bigEndian (w : InstrWord N) (h : (N + 16) % 8 = 0) :
    ∃ bs, bytesOfWord w = some bs ∧ bs.length * 8 = N + 16 ∧
      (∀ k, k < bs.length → bs[k]? = some (byteAt w k)) ∧ wordOfBytes N bs = some w := by
  have hlen : ((List.range ((N + 16) / 8)).map (byteAt w)).length = (N + 16) / 8 := by simp
  refine ⟨_, bytesOfWord_eq w h, by omega, fun k hk => ?_, wordOfBytes_bytes w h⟩
  rw [List.getElem?_map, List.getElem?_range (hlen ▸ hk), Option.map_some]

/-- Settles O11: at N = 16 the four places are those of the general form. -/
theorem wordBytesBigEndian : Obligations.WordBytesBigEndian := by
  refine ⟨fun N w h => bytesOfWord_bigEndian w h, fun w => ?_⟩
  obtain ⟨bs, hbytes, hlen, hplace, hback⟩ := bytesOfWord_bigEndian w (by decide)
  have hlen : bs.length = 4 := by omega
  exact ⟨bs, hbytes, hlen, hplace 0 (by omega), hplace 1 (by omega), hplace 2 (by omega), hplace 3 (by omega), hback⟩

end Sys2Proof
end

section
/-! SUPPORT. Data memory (20_memory): the range check, what LOAD and STORE leave in range and out of range, the one
cell that an instruction accesses, and what the host's power-on and cell write leave in a cell. -/

namespace Sys2Proof.Machine

variable {N : Nat}

/-! ### The range check (20_memory R53) -/

theorem inRange_iff (a : Word N) : inRange a = true ↔ a.toNat < 1024 := decide_eq_true_iff

theorem inRange_eq_false_iff (a : Word N) : inRange a = false ↔ 1024 ≤ a.toNat := by
  rw [← Bool.not_eq_true, inRange_iff, Nat.not_lt]

/-- Settles O23: at 12 bits or more a word below 1024 has its sign bit clear. -/
theorem rangeCheckReadings : Obligations.RangeCheckReadings := by
  intro N a hN
  refine ⟨inRange_iff a, ?_⟩
  have hpow : 2 ^ 12 ≤ 2 ^ N := Nat.pow_le_pow_right (by decide) hN
  have hlt := a.isLt
  rw [inRange_iff, BitVec.toInt_eq_toNat_cond]
  split <;> omega

/-! ### LOAD and STORE (20_memory R51, R55) -/

theorem loadFrom_readReg (d : Reg) {ea : Word N} (s : CoreState N) (h : inRange ea = true) :
    (loadFrom d ea s).readReg d = s.memRead ea.toNat := by
  rw [loadFrom_inRange d s h]
  exact CoreState.readReg_writeReg_same s d _

theorem storeTo_memRead {ea : Word N} (v : Word N) (s : CoreState N) (h : inRange ea = true) :
    (storeTo ea v s).memRead ea.toNat = v := by
  rw [CoreState.memRead, storeTo_mem, if_pos h, Memory.read_write_same]

@[simp] theorem storeTo_readReg (ea v : Word N) (s : CoreState N) (r : Reg) :
    (storeTo ea v s).readReg r = s.readReg r := by
  rw [CoreState.readReg, storeTo_regs, CoreState.readReg]

theorem exec_load (d r : Reg) (s : CoreState N) :
    exec (.load d r) ⟨N, s⟩ = .next ⟨N, (loadFrom d (s.readReg r) s).advance s.nextPc⟩ :=
  rfl

theorem exec_storeReg (r x : Reg) (s : CoreState N) :
    exec (.storeReg r x) ⟨N, s⟩ = .next ⟨N, (storeTo (s.readReg x) (s.readReg r) s).advance s.nextPc⟩ :=
  rfl

/-- An absolute address reads as the field it came from (30_encoding R85). -/
theorem exec_storeAbs_toNat (r : Reg) (x : Word N) (s : CoreState N) :
    exec (.storeAbs r x.toNat) ⟨N, s⟩ = .next ⟨N, (storeTo x (s.readReg r) s).advance s.nextPc⟩ := by
  simp [exec, execStoreAbs]

/-- A LOAD whose address register holds the address of the STORE before it gets the stored value whole. -/
theorem exec_load_after_storeTo {ea : Word N} (v npc : Word N) {s : CoreState N} (h : ea.toNat < 1024) (d : Reg)
    {y : Reg} (hy : s.readReg y = ea) :
    ∃ u : CoreState N, exec (.load d y) ⟨N, (storeTo ea v s).advance npc⟩ = .next ⟨N, u⟩ ∧ u.readReg d = v := by
  have hin : inRange ea = true := (inRange_iff ea).mpr h
  refine ⟨_, exec_load d y _, ?_⟩
  rw [CoreState.advance_readReg, CoreState.advance_readReg, storeTo_readReg, hy, loadFrom_readReg d _ hin,
    CoreState.advance_memRead, storeTo_memRead v s hin]

/-- Settles O24: both forms of STORE have the one effect `storeTo`, after which a LOAD of the cell reads the value. -/
theorem storeThenLoad : Obligations.StoreThenLoad := by
  refine ⟨fun N r x d y s h hy => ?_, fun N r d y x s h hy => ?_⟩
  · obtain ⟨u, hload, hvalue⟩ := exec_load_after_storeTo (s.readReg r) s.nextPc h d hy
    exact ⟨_, u, exec_storeReg r x s, hload, hvalue⟩
  · obtain ⟨u, hload, hvalue⟩ := exec_load_after_storeTo (s.readReg r) s.nextPc h d hy
    exact ⟨_, u, exec_storeAbs_toNat r x s, hload, hvalue⟩

/-- Settles O22: out of range LOAD only emits its event and STORE does nothing; the advance follows. -/
theorem outOfRangeAccess : Obligations.OutOfRangeAccess := by
  refine ⟨fun N d r s hs h => ?_, fun N r x s hs h => ?_, fun N r x s hs h => ?_⟩
  · have hexec : exec (.load d r) ⟨N, s⟩ = .next ⟨N, (s.emit (segFaultEvent (s.readReg r))).advance s.nextPc⟩ := by
      rw [exec_load, loadFrom_outOfRange d s ((inRange_eq_false_iff _).mpr h)]
    exact ⟨_, hexec, rfl, fun _ => rfl, fun _ => rfl, if_pos hs, rfl, hs, exec_sameControl hexec⟩
  · have hexec : exec (.storeReg r x) ⟨N, s⟩ = .next ⟨N, s.advance s.nextPc⟩ := by
      rw [exec_storeReg, storeTo_outOfRange _ s ((inRange_eq_false_iff _).mpr h)]
    exact ⟨_, hexec, rfl, fun _ => rfl, fun _ => rfl, if_pos hs, rfl, hs, exec_sameControl hexec⟩
  · have hexec : exec (.storeAbs r x.toNat) ⟨N, s⟩ = .next ⟨N, s.advance s.nextPc⟩ := by
      rw [exec_storeAbs_toNat, storeTo_outOfRange _ s ((inRange_eq_false_iff _).mpr h)]
    exact ⟨_, hexec, rfl, fun _ => rfl, fun _ => rfl, if_pos hs, rfl, hs, exec_sameControl hexec⟩

/-! ### The one cell an instruction accesses (20_memory R54) -/

/-- The memory after an instruction that accesses the cell at `ea`: the stored value, or the one it held, and the
tick. -/
def accessedMemory (i : Instr) (s : CoreState N) (ea : Word N) : Memory N :=
  s.mem.write ea.toNat ⟨(storedValue i s).getD (s.memRead ea.toNat), s.now⟩

/-- An instruction accesses the cell at its effective address in range. -/
theorem exec_mem_of_inRange {i : Instr} {s t : CoreState N} (h : exec i ⟨N, s⟩ = .next ⟨N, t⟩) {ea : Word N}
    (hea : effectiveAddress i s = some ea) (hin : inRange ea = true) : t.mem = accessedMemory i s ea := by
  cases i with
  | load d r => cases h; cases hea; exact (loadFrom_mem d _ s).trans (if_pos hin)
  | storeReg r x => cases h; cases hea; exact (storeTo_mem _ _ s).trans (if_pos hin)
  | storeAbs r addr => cases h; cases hea; exact (storeTo_mem _ _ s).trans (if_pos hin)
  | _ => cases hea

/-- An instruction with no effective address in range leaves data memory as it is. -/
theorem exec_mem_of_no_access {i : Instr} {s t : CoreState N} (h : exec i ⟨N, s⟩ = .next ⟨N, t⟩)
    (hout : ∀ ea, effectiveAddress i s = some ea → ¬ inRange ea = true) : t.mem = s.mem := by
  cases i with
  | load d r => cases h; exact (loadFrom_mem d _ s).trans (if_neg (hout _ rfl))
  | storeReg r x => cases h; exact (storeTo_mem _ _ s).trans (if_neg (hout _ rfl))
  | storeAbs r addr => cases h; exact (storeTo_mem _ _ s).trans (if_neg (hout _ rfl))
  | _ => cases h; rfl

/-- An instruction changes no cell but the one at its effective address in range. -/
theorem exec_read_other {i : Instr} {s t : CoreState N} (h : exec i ⟨N, s⟩ = .next ⟨N, t⟩) {a : Nat}
    (ha : ∀ ea, effectiveAddress i s = some ea → inRange ea = true → a ≠ ea.toNat) :
    t.mem.read a = s.mem.read a := by
  by_cases hacc : ∃ ea, effectiveAddress i s = some ea ∧ inRange ea = true
  · obtain ⟨ea, hea, hin⟩ := hacc
    rw [exec_mem_of_inRange h hea hin]
    exact Memory.read_write_other s.mem (ha ea hea hin) _
  · rw [exec_mem_of_no_access h fun ea hea hin => hacc ⟨ea, hea, hin⟩]

/-- An instruction at an address in range leaves there the value it stores, or the one that was there. -/
theorem exec_value_at {i : Instr} {s t : CoreState N} (h : exec i ⟨N, s⟩ = .next ⟨N, t⟩) {ea : Word N}
    (hea : effectiveAddress i s = some ea) (hin : inRange ea = true) :
    (t.mem.read ea.toNat).value = (storedValue i s).getD (s.mem.read ea.toNat).value := by
  rw [exec_mem_of_inRange h hea hin, accessedMemory, Memory.read_write_same, CoreState.memRead]

/-- An instruction that stores no value changes no cell's value. -/
theorem exec_value_of_no_store {i : Instr} {s t : CoreState N} (h : exec i ⟨N, s⟩ = .next ⟨N, t⟩)
    (hv : storedValue i s = none) (a : Nat) : (t.mem.read a).value = (s.mem.read a).value := by
  by_cases ha : ∃ ea, effectiveAddress i s = some ea ∧ inRange ea = true ∧ ea.toNat = a
  · obtain ⟨ea, hea, hin, rfl⟩ := ha
    rw [exec_value_at h hea hin, hv, Option.getD_none]
  · rw [exec_read_other h fun ea hea hin e => ha ⟨ea, hea, hin, e.symm⟩]

/-! ### A step by its next instruction (60_exceptions R216) -/

/-- A step with no instruction to execute leaves data memory as it is. -/
theorem step_mem_of_nextInstr_none {s t : CoreState N} (hi : nextInstr s = none)
    (h : step ⟨N, s⟩ = .next ⟨N, t⟩) : t.mem = s.mem := by
  obtain ⟨-, ho⟩ | ⟨-, -, ho⟩ | ⟨w, code, -, -, -, ho⟩ | ⟨w, i, hs, hf, hd, -⟩ := step_cases h
  · cases ho
    rfl
  · cases ho
    rfl
  · cases ho
    rfl
  · cases hi.symm.trans (nextInstr_eq_some_iff.mpr ⟨hs, w, hf, hd⟩)

/-- A step with a next instruction executes it after the phases before it. -/
theorem step_of_nextInstr {s : CoreState N} {i : Instr} (hi : nextInstr s = some i) :
    ∃ w, step ⟨N, s⟩ = exec i ⟨N, s.countCycle.beginInstruction w⟩ := by
  obtain ⟨hs, w, hf, hd⟩ := nextInstr_eq_some_iff.mp hi
  exact ⟨w, step_of_decoded hs hf hd⟩

/-- Settles O25: an instruction accesses the one cell at its address, and a step without one keeps data memory. -/
theorem oneCellPerStep : Obligations.OneCellPerStep := by
  refine ⟨fun N i s => ?_, fun N s hi => ?_⟩
  · obtain ⟨t, ht⟩ := exec_completes i s
    exact ⟨t, ht, fun a ha => exec_read_other ht ha, fun hv a => exec_value_of_no_store ht hv a⟩
  · obtain ⟨t, ht⟩ := step_completes s
    exact ⟨t, ht, step_mem_of_nextInstr_none hi ht⟩

/-- Settles O45: no phase of a step and no instruction writes the loaded program. -/
theorem programNeverWritten : Obligations.ProgramNeverWritten := by
  intro N s
  obtain ⟨t, ht⟩ := step_completes s
  refine ⟨t, ht, ?_⟩
  obtain ⟨-, ho⟩ | ⟨-, -, ho⟩ | ⟨w, code, -, -, -, ho⟩ | ⟨w, i, -, -, -, ho⟩ := step_cases ht
  · cases ho
    rfl
  · cases ho
    rfl
  · cases ho
    rfl
  · exact (exec_sameControl ho.symm).program

/-! ### The host's writes of data memory (20_memory R62, R63) -/

theorem Memory.writeAll_append (m : Memory N) (l l' : List (Nat × Cell N)) :
    m.writeAll (l ++ l') = (m.writeAll l).writeAll l' := by
  induction l generalizing m with
  | nil => rfl
  | cons p rest ih => exact ih _

/-- A cell that no entry of the list is for reads as before. -/
theorem Memory.read_writeAll_other (m : Memory N) {l : List (Nat × Cell N)} {a : Nat} (h : ∀ p ∈ l, p.1 ≠ a) :
    (m.writeAll l).read a = m.read a := by
  induction l generalizing m with
  | nil => rfl
  | cons p rest ih =>
    have hp : a ≠ p.1 := (h p List.mem_cons_self).symm
    have hrest := ih (m.write p.1 p.2) fun q hq => h q (List.mem_cons_of_mem p hq)
    exact hrest.trans (Memory.read_write_other m hp p.2)

/-- A cell reads as the last entry of the list for it. -/
theorem Memory.read_writeAll_last (m : Memory N) (before : List (Nat × Cell N)) (a : Nat) (c : Cell N)
    {after : List (Nat × Cell N)} (h : ∀ p ∈ after, p.1 ≠ a) :
    (m.writeAll (before ++ (a, c) :: after)).read a = c := by
  have hafter := Memory.read_writeAll_other ((m.writeAll before).write a c) h
  rw [Memory.writeAll_append]
  exact hafter.trans (Memory.read_write_same _ a c)

/-- Planting keeps the indices of the entries. -/
theorem plantedCells_index_ne {planted : List (Nat × Nat × Tick)} {a : Nat} (h : ∀ p ∈ planted, p.1 ≠ a) :
    ∀ q ∈ plantedCells N planted, q.1 ≠ a := by
  intro q hq
  obtain ⟨p, hp, rfl⟩ := List.mem_map.mp hq
  exact h p hp

/-- The core right after a power-on with the given planted cells. -/
def CoreState.poweredOn (s : CoreState N) (planted : List (Nat × Nat × Tick)) : CoreState N :=
  { CoreState.reset N with
    mem := (CoreState.reset N).mem.writeAll (plantedCells N planted)
    draws := s.draws }

theorem hostMove_powerOn (s : CoreState N) {planted : List (Nat × Nat × Tick)}
    (h : ∀ p ∈ planted, p.1 < 1024 ∧ p.2.1 < 2 ^ N) :
    hostMove (.powerOn planted) ⟨N, s⟩ = some ⟨N, s.poweredOn planted⟩ :=
  if_pos (by simpa [cellFits] using h)

/-- Settles O48: the planted cells are written in order over the power-on draws. -/
theorem powerOnMemory : Obligations.PowerOnMemory := by
  intro N s planted h
  refine ⟨_, hostMove_powerOn s h, fun before a v tick after hsplit hlast => ?_, fun a ha => ?_⟩
  · have hv : v < 2 ^ N := (h (a, v, tick) (by simp [hsplit])).2
    have hread : (s.poweredOn planted).mem.read a = ⟨BitVec.ofNat N v, tick⟩ := by
      subst hsplit
      rw [CoreState.poweredOn, plantedCells, List.map_append]
      exact Memory.read_writeAll_last _ _ a _ (plantedCells_index_ne hlast)
    rw [hread]
    exact ⟨toNat_ofNat_of_lt hv, rfl⟩
  · exact Memory.read_writeAll_other _ (plantedCells_index_ne ha)

/-- Settles O55: the ambient write is one `Memory.write`. -/
theorem hostCellWrite : Obligations.HostCellWrite := by
  intro N a v tick s ha
  have hmove : hostMove (.writeCell a v.toNat tick) ⟨N, s⟩ = some ⟨N, { s with mem := s.mem.write a ⟨v, tick⟩ }⟩ := by
    simp [hostMove, hostWriteCell, cellFits, ha, v.isLt]
  exact ⟨_, hmove, Memory.read_write_same s.mem a _, fun b hb => Memory.read_write_other s.mem hb _, rfl⟩

end Sys2Proof.Machine
end

section
/-! SUPPORT. The latest write to a cell (20_memory R64): each transition leaves in every cell the value it writes
there, or the value that was there, so a sequence of them leaves the latest. -/

namespace Sys2Proof.Machine

variable {N : Nat}

/-! ### The value a step writes -/

/-- The phases before execute do not change an instruction's address. -/
theorem effectiveAddress_begin (i : Instr) (s : CoreState N) (w : InstrWord N) :
    effectiveAddress i (s.countCycle.beginInstruction w) = effectiveAddress i s := by
  cases i with
  | _ => rfl

/-- The phases before execute do not change the value an instruction stores. -/
theorem storedValue_begin (i : Instr) (s : CoreState N) (w : InstrWord N) :
    storedValue i (s.countCycle.beginInstruction w) = storedValue i s := by
  cases i with
  | _ => rfl

theorem writtenBy_step_of_nextInstr_none {s : CoreState N} (hi : nextInstr s = none) (a : Nat) :
    writtenBy .step ⟨N, s⟩ a = none := by
  simp [writtenBy, hi]

/-- A step writes at its instruction's address in range the value that the instruction stores, if it stores one. -/
theorem writtenBy_step_at {s : CoreState N} {i : Instr} {ea : Word N} (hi : nextInstr s = some i)
    (hea : effectiveAddress i s = some ea) (hin : inRange ea = true) :
    writtenBy .step ⟨N, s⟩ ea.toNat = (storedValue i s).map BitVec.toNat := by
  cases hv : storedValue i s <;> simp [writtenBy, hi, hea, hv, hin]

/-- A step writes no cell but the one at its instruction's address in range. -/
theorem writtenBy_step_other {s : CoreState N} {i : Instr} {a : Nat} (hi : nextInstr s = some i)
    (ha : ∀ ea, effectiveAddress i s = some ea → inRange ea = true → a ≠ ea.toNat) :
    writtenBy .step ⟨N, s⟩ a = none := by
  cases hea : effectiveAddress i s with
  | none => simp [writtenBy, hi, hea]
  | some ea =>
    cases hv : storedValue i s with
    | none => simp [writtenBy, hi, hea, hv]
    | some v =>
      have hne : ¬ (inRange ea = true ∧ ea.toNat = a) := fun h => ha ea hea h.1 h.2.symm
      simp [writtenBy, hi, hea, hv, hne]

/-- After a step a cell holds the value the step writes there, or the value it held. -/
theorem step_value {s t : CoreState N} (h : step ⟨N, s⟩ = .next ⟨N, t⟩) (a : Nat) :
    (t.mem.read a).value.toNat = (writtenBy .step ⟨N, s⟩ a).getD (s.mem.read a).value.toNat := by
  cases hi : nextInstr s with
  | none => rw [step_mem_of_nextInstr_none hi h, writtenBy_step_of_nextInstr_none hi, Option.getD_none]
  | some i =>
    obtain ⟨w, hstep⟩ := step_of_nextInstr hi
    have hexec : exec i ⟨N, s.countCycle.beginInstruction w⟩ = .next ⟨N, t⟩ := hstep.symm.trans h
    by_cases ha : ∃ ea, effectiveAddress i s = some ea ∧ inRange ea = true ∧ a = ea.toNat
    · obtain ⟨ea, hea, hin, rfl⟩ := ha
      have hvalue := exec_value_at hexec ((effectiveAddress_begin i s w).trans hea) hin
      rw [hvalue, storedValue_begin, writtenBy_step_at hi hea hin, Option.getD_map]
      rfl
    · have hother : ∀ ea, effectiveAddress i s = some ea → inRange ea = true → a ≠ ea.toNat :=
        fun ea hea hin e => ha ⟨ea, hea, hin, e⟩
      rw [writtenBy_step_other hi hother, Option.getD_none,
        exec_read_other hexec ((effectiveAddress_begin i s w).symm ▸ hother)]
      rfl

/-! ### The value a transition writes, and the latest of a sequence -/

/-- After a transition that is no power-on a cell holds the value the transition writes there, or the value it
held. -/
theorem move_value {m : Move} {s t : CoreState N} (hm : ∀ planted, m ≠ .host (.powerOn planted))
    (h : move m ⟨N, s⟩ = some ⟨N, t⟩) (a : Nat) :
    (t.mem.read a).value.toNat = (writtenBy m ⟨N, s⟩ a).getD (s.mem.read a).value.toNat := by
  obtain ⟨rfl, hstep⟩ | ⟨x, rfl, hhost⟩ := move_cases h
  · exact step_value hstep a
  · obtain ⟨u, hu, ⟨planted, rfl, -, -⟩ | ⟨words, rfl, -, -, rfl⟩ | ⟨st, rfl, -, ⟨-, rfl⟩ | ⟨-, rfl⟩⟩ |
      ⟨b, v, tick, rfl, -, hv, rfl⟩⟩ := hostMove_cases hhost
    · exact absurd rfl (hm planted)
    · cases hu
      rfl
    · cases hu
      rfl
    · cases hu
      rfl
    · cases hu
      by_cases hb : b = a
      · subst hb
        simp [writtenBy, toNat_ofNat_of_lt hv]
      · simp [writtenBy, hb, Memory.read_write_other _ (Ne.symm hb)]

/-- The latest write of a sequence is the latest of its rest, or else its first transition's. -/
theorem latestWrite_cons {m : Move} {s u : State} (h : move m s = some u) (rest : List Move) (a : Nat) :
    latestWrite (m :: rest) s a = (latestWrite rest u a).or (writtenBy m s a) := by
  simp only [latestWrite, h]
  cases latestWrite rest u a <;> rfl

/-- After a sequence of transitions without a power-on a cell holds the latest value written to it, or the value it
had before. -/
theorem runMoves_value {moves : List Move} {s t : CoreState N}
    (hm : ∀ planted, Move.host (.powerOn planted) ∉ moves) (h : runMoves moves ⟨N, s⟩ = some ⟨N, t⟩) (a : Nat) :
    (t.mem.read a).value.toNat = (latestWrite moves ⟨N, s⟩ a).getD (s.mem.read a).value.toNat := by
  induction moves generalizing s with
  | nil =>
    cases h
    rfl
  | cons m rest ih =>
    obtain ⟨o, ho, hrest⟩ := runMoves_cons_eq_some.mp h
    obtain ⟨u, rfl⟩ := move_eq_mk ho
    have hfirst := move_value (fun planted e => hm planted (e ▸ List.mem_cons_self)) ho a
    have hlater := ih (fun planted hp => hm planted (List.mem_cons_of_mem m hp)) hrest
    rw [hlater, hfirst, latestWrite_cons ho, Option.getD_or]

/-- A step whose instruction is a LOAD in range puts the cell's value in the register. -/
theorem step_load {s : CoreState N} {d r : Reg} (hi : nextInstr s = some (.load d r))
    (h : (s.readReg r).toNat < 1024) :
    ∃ u : CoreState N, step ⟨N, s⟩ = .next ⟨N, u⟩ ∧ u.readReg d = (s.mem.read (s.readReg r).toNat).value := by
  obtain ⟨w, hstep⟩ := step_of_nextInstr hi
  refine ⟨_, hstep.trans (exec_load d r _), ?_⟩
  rw [CoreState.advance_readReg]
  exact loadFrom_readReg d _ ((inRange_iff _).mpr h)

/-- Settles O53: by induction over the sequence every cell holds its latest write, and a LOAD reads the cell. -/
theorem loadReturnsLatestWrite : Obligations.LoadReturnsLatestWrite := by
  intro N moves s t hm h
  refine ⟨runMoves_value hm h, fun d r hi hin => ?_⟩
  obtain ⟨u, hstep, hload⟩ := step_load hi hin
  exact ⟨u, hstep, hload ▸ runMoves_value hm h _⟩

end Sys2Proof.Machine
end

section
/-! SUPPORT. The decoder (30_encoding R89) said once, case by case, and what each opcode allows and asks for in the
words of the rules (R92, R93); from these, when each of the three codes is answered. -/

namespace Sys2Proof

variable {N : Nat}

/-! ### The columns of 30_encoding R87, by the opcode's number -/

/-- The modes an opcode does not allow (30_encoding R93). -/
theorem allowedM_eq_false_iff (op : OpCode) (m : Bool) : allowedM op m = false ↔
    ((op.number.toNat = 0 ∨ op.number.toNat = 4 ∨ op.number.toNat = 5) ∧ m = false) ∨
    ((op.number.toNat = 2 ∨ op.number.toNat = 6 ∨ op.number.toNat = 8 ∨ op.number.toNat = 9) ∧ m = true) := by
  revert m
  cases op <;> decide

/-- The opcodes that do not use A (30_encoding R92). -/
theorem aUse_eq_unused_iff (op : OpCode) : aUse op = .unused ↔
    op.number.toNat = 4 ∨ op.number.toNat = 5 ∨ op.number.toNat = 8 := by
  cases op <;> decide

/-- Under an allowed mode, where B is a register index (30_encoding R92). -/
theorem bUse_eq_register_iff {op : OpCode} {m : Bool} (h : allowedM op m = true) : bUse op m = .register ↔
    (op.number.toNat = 1 ∨ op.number.toNat = 2 ∨ op.number.toNat = 3 ∨ op.number.toNat = 6 ∨
      op.number.toNat = 7) ∧ m = false := by
  revert m
  cases op <;> decide

/-- The opcodes that do not use B (30_encoding R92). -/
theorem bUse_eq_unused_iff (op : OpCode) (m : Bool) : bUse op m = .unused ↔
    op.number.toNat = 8 ∨ op.number.toNat = 9 := by
  revert m
  cases op <;> decide

/-! ### The decoder, case by case -/

/-- Every field of a word that must be 0 under its opcode is (30_encoding R91, R92). -/
def MustBeZero (op : OpCode) (w : InstrWord N) : Prop :=
  rsvField w = 0 ∧ (aUse op = .unused → aField w = 0) ∧
    (bUse op (mField w) = .register → bHigh (bField w) = 0) ∧ (bUse op (mField w) = .unused → bField w = 0)

theorem not_mustBeZero_iff (op : OpCode) (w : InstrWord N) : ¬ MustBeZero op w ↔
    rsvField w ≠ 0 ∨ (aUse op = .unused ∧ aField w ≠ 0) ∨
      (bUse op (mField w) = .register ∧ bHigh (bField w) ≠ 0) ∨ (bUse op (mField w) = .unused ∧ bField w ≠ 0) := by
  simp only [MustBeZero, not_and_or, Classical.not_imp, ne_eq]

theorem decode_of_noOpCode {w : InstrWord N} (h : opCodeOf (opField w) = none) :
    decode w = .error .illegalOpcode := by
  simp only [decode, h]

theorem decode_of_modeNotAllowed {w : InstrWord N} {op : OpCode} (h : opCodeOf (opField w) = some op)
    (hm : allowedM op (mField w) = false) : decode w = .error .illegalMode := by
  simp only [decode, h, if_pos hm]

theorem decode_of_mustBeZero {w : InstrWord N} {op : OpCode} (h : opCodeOf (opField w) = some op)
    (hm : allowedM op (mField w) = true) (hz : MustBeZero op w) :
    decode w = .ok (instrOfFields op (mField w) (regOfField (aField w)) (bField w)) := by
  obtain ⟨hrsv, ha, hreg, hun⟩ := hz
  simp only [decode, h]
  rw [if_neg (by simp [hm]), if_neg (not_not_intro hrsv), if_neg (fun c => c.2 (ha c.1)),
    if_neg (fun c => c.2 (hreg c.1)), if_neg (fun c => c.2 (hun c.1))]

theorem decode_of_not_mustBeZero {w : InstrWord N} {op : OpCode} (h : opCodeOf (opField w) = some op)
    (hm : allowedM op (mField w) = true) (hz : ¬ MustBeZero op w) : decode w = .error .reservedNonzero := by
  simp only [decode, h]
  rw [if_neg (by simp [hm])]
  split_ifs with hrsv ha hreg hun
  · rfl
  · rfl
  · rfl
  · rfl
  · simp only [ne_eq, not_and, not_not] at hrsv ha hreg hun
    exact absurd ⟨hrsv, ha, hreg, hun⟩ hz

/-- Everything the decoder can answer, with its reason (30_encoding R89). -/
theorem decode_cases (w : InstrWord N) :
    (opCodeOf (opField w) = none ∧ decode w = .error .illegalOpcode) ∨
    ∃ op, opCodeOf (opField w) = some op ∧
      ((allowedM op (mField w) = false ∧ decode w = .error .illegalMode) ∨
       (allowedM op (mField w) = true ∧ ¬ MustBeZero op w ∧ decode w = .error .reservedNonzero) ∨
       (allowedM op (mField w) = true ∧ MustBeZero op w ∧
          decode w = .ok (instrOfFields op (mField w) (regOfField (aField w)) (bField w)))) := by
  cases h : opCodeOf (opField w) with
  | none => exact .inl ⟨rfl, decode_of_noOpCode h⟩
  | some op =>
    refine .inr ⟨op, rfl, ?_⟩
    cases hm : allowedM op (mField w) with
    | false => exact .inl ⟨rfl, decode_of_modeNotAllowed h hm⟩
    | true =>
      by_cases hz : MustBeZero op w
      · exact .inr (.inr ⟨rfl, hz, decode_of_mustBeZero h hm hz⟩)
      · exact .inr (.inl ⟨rfl, hz, decode_of_not_mustBeZero h hm hz⟩)

theorem decode_eq_illegalOpcode_iff (w : InstrWord N) :
    decode w = .error .illegalOpcode ↔ opCodeOf (opField w) = none := by
  obtain ⟨h, hd⟩ | ⟨op, h, ⟨-, hd⟩ | ⟨-, -, hd⟩ | ⟨-, -, hd⟩⟩ := decode_cases w
  · simp [h, hd]
  · simp [h, hd]
  · simp [h, hd]
  · simp [h, hd]

theorem decode_eq_illegalMode_iff (w : InstrWord N) : decode w = .error .illegalMode ↔
    ∃ op, opCodeOf (opField w) = some op ∧ allowedM op (mField w) = false := by
  obtain ⟨h, hd⟩ | ⟨op, h, ⟨hm, hd⟩ | ⟨hm, -, hd⟩ | ⟨hm, -, hd⟩⟩ := decode_cases w
  · simp [h, hd]
  · simp [h, hd, hm]
  · simp [h, hd, hm]
  · simp [h, hd, hm]

theorem decode_eq_reservedNonzero_iff (w : InstrWord N) : decode w = .error .reservedNonzero ↔
    ∃ op, opCodeOf (opField w) = some op ∧ allowedM op (mField w) = true ∧ ¬ MustBeZero op w := by
  obtain ⟨h, hd⟩ | ⟨op, h, ⟨hm, hd⟩ | ⟨hm, hz, hd⟩ | ⟨hm, hz, hd⟩⟩ := decode_cases w
  · simp [h, hd]
  · simp [h, hd, hm]
  · simp [h, hd, hm, hz]
  · simp [h, hd, hm, hz]

theorem decode_eq_ok_iff (w : InstrWord N) (i : Instr) : decode w = .ok i ↔
    ∃ op, opCodeOf (opField w) = some op ∧ allowedM op (mField w) = true ∧ MustBeZero op w ∧
      instrOfFields op (mField w) (regOfField (aField w)) (bField w) = i := by
  obtain ⟨h, hd⟩ | ⟨op, h, ⟨hm, hd⟩ | ⟨hm, hz, hd⟩ | ⟨hm, hz, hd⟩⟩ := decode_cases w
  · simp [h, hd]
  · simp [h, hd, hm]
  · simp [h, hd, hm, hz]
  · simp [h, hd, hm, hz]

/-- An OP field below 10 is the number of the opcode it names (30_encoding R86). -/
theorem exists_opCode_of_lt {f : BitVec 4} (h : f.toNat < 10) : ∃ op, opCodeOf f = some op ∧ f = op.number := by
  cases ho : opCodeOf f with
  | none => exact absurd ((opCodeOf_eq_none_iff f).mp ho) (by omega)
  | some op => exact ⟨op, rfl, (number_of_opCodeOf ho).symm⟩

/-! ### The unordered checks of 30_encoding R88 -/

section
variable {w : InstrWord N} {op : OpCode} (h : opField w = op.number)
include h

theorem modeLegal_eq_allowedM : modeLegal w = allowedM op (mField w) := by
  simp only [modeLegal, h]
  cases op <;> rfl

theorem aLegal_iff : aLegal w = true ↔ (aUse op = .unused → aField w = 0) := by
  simp only [aLegal, h]
  cases op <;> simp [aUse, OpCode.number]

theorem bRegisterLegal_iff (hm : allowedM op (mField w) = true) :
    bRegisterLegal w = true ↔ (bUse op (mField w) = .register → bHigh (bField w) = 0) := by
  simp only [bRegisterLegal, h]
  cases hmode : mField w <;> cases op <;> simp [hmode, allowedM, bUse, OpCode.number] at hm ⊢

theorem bUnusedLegal_iff : bUnusedLegal w = true ↔ (bUse op (mField w) = .unused → bField w = 0) := by
  simp only [bUnusedLegal, h, bUse_eq_unused_iff]
  cases op <;> simp [OpCode.number]

theorem reservedLegal_iff (hm : allowedM op (mField w) = true) : reservedLegal w = true ↔ MustBeZero op w := by
  simp only [reservedLegal, rsvLegal, Bool.and_eq_true, beq_iff_eq, aLegal_iff h, bRegisterLegal_iff h hm,
    bUnusedLegal_iff h, MustBeZero, and_assoc]

end

/-- Settles O5: the decoder's first check, and the codes that name no opcode. -/
theorem illegalOpcodeExactly : Obligations.IllegalOpcodeExactly :=
  ⟨rfl, fun _ w => (decode_eq_illegalOpcode_iff w).trans (opCodeOf_eq_none_iff _)⟩

/-- Settles O6: the decoder's second check, and the column "allowed M" by the opcode's number. -/
theorem illegalModeExactly : Obligations.IllegalModeExactly := by
  refine ⟨rfl, fun N w => (decode_eq_illegalMode_iff w).trans ⟨?_, fun h => ?_⟩⟩
  · rintro ⟨op, ho, hm⟩
    rwa [allowedM_eq_false_iff, number_of_opCodeOf ho] at hm
  · obtain ⟨op, ho, hop⟩ := exists_opCode_of_lt (f := opField w) (by omega)
    refine ⟨op, ho, ?_⟩
    rwa [allowedM_eq_false_iff, ← hop]

/-- Settles O7: under a legal opcode and an allowed mode only the must-be-zero fields are left to fail. -/
theorem reservedNonzeroExactly : Obligations.ReservedNonzeroExactly := by
  refine ⟨rfl, fun N w ho hm => ?_⟩
  obtain ⟨op, ho, hop⟩ := exists_opCode_of_lt (of_decide_eq_true ho)
  rw [modeLegal_eq_allowedM hop] at hm
  simp only [decode_eq_reservedNonzero_iff, ho, Option.some.injEq, exists_eq_left', hm, true_and, not_mustBeZero_iff,
    aUse_eq_unused_iff, bUse_eq_register_iff hm, bUse_eq_unused_iff, ← hop, and_assoc]

/-- Settles O8: each unordered check is the check of the decoder on the same field. -/
theorem wellFormedWordDecodes : Obligations.WellFormedWordDecodes := by
  intro N w
  simp only [wellFormedWord, Bool.and_eq_true, decode_eq_ok_iff]
  constructor
  · rintro ⟨⟨ho, hm⟩, hz⟩
    obtain ⟨op, ho, hop⟩ := exists_opCode_of_lt (of_decide_eq_true ho)
    rw [modeLegal_eq_allowedM hop] at hm
    exact ⟨_, op, ho, hm, (reservedLegal_iff hop hm).mp hz, rfl⟩
  · rintro ⟨i, op, ho, hm, hz, -⟩
    have hop := (number_of_opCodeOf ho).symm
    have hlt : (opField w).toNat < 10 := by
      rw [← Nat.not_le, ← opCodeOf_eq_none_iff, ho]
      exact Option.some_ne_none op
    exact ⟨⟨decide_eq_true hlt, (modeLegal_eq_allowedM hop).trans hm⟩, (reservedLegal_iff hop hm).mpr hz⟩

end Sys2Proof
end

section
/-! SUPPORT. The encoder against the decoder (30_encoding R89, R94): a word of legal fields decodes to the instruction
of its fields, and an instruction is read back from the word of its fields; where the fields of a word stand (R81); and
the all-zeros word (R95). -/

namespace Sys2Proof

variable {N : Nat}

/-- A word whose fields its opcode allows decodes to the instruction of these fields (30_encoding R87). -/
theorem decode_wordOfFields {op : OpCode} {m : Bool} {a : BitVec 3} {b : Word N} {i : Instr}
    (hm : allowedM op m = true) (ha : aUse op = .unused → a = 0) (hreg : bUse op m = .register → bHigh b = 0)
    (hun : bUse op m = .unused → b = 0) (hi : instrOfFields op m (regOfField a) b = i) :
    decode (wordOfFields op m a b) = .ok i := by
  have hz : MustBeZero op (wordOfFields op m a b) :=
    ⟨rsvField_wordOfFields _ _ _ _, by simpa using ha, by simpa using hreg, by simpa using hun⟩
  simpa [hi] using decode_of_mustBeZero (by simp) (by simpa using hm) hz

/-- The number in B of an instruction that fits is read back from the field (30_encoding R84, R85). -/
theorem toNat_ofNat_of_bFits {i : Instr} (h : bFits N i = true) {v : Nat} (hv : numberInB i = some v) :
    (BitVec.ofNat N v).toNat = v := by
  simp only [bFits, hv, decide_eq_true_eq] at h
  exact toNat_ofNat_of_lt h

/-- The decoder reads every instruction back from its word, at a width that holds a register index. -/
theorem decode_encode (hN : 3 ≤ N) {i : Instr} (h : bFits N i = true) : decode (encode N i) = .ok i := by
  have hnum : ∀ v, numberInB i = some v → (BitVec.ofNat N v).toNat = v := fun _ => toNat_ofNat_of_bFits h
  cases i with
  | halt => exact decode_wordOfFields rfl (fun _ => rfl) nofun (fun _ => rfl) rfl
  | print r => exact decode_wordOfFields rfl nofun nofun (fun _ => rfl) rfl
  | jmp t | jz t => exact decode_wordOfFields rfl (fun _ => rfl) nofun nofun (by simp [instrOfFields, hnum _ rfl])
  | mov d v | addImm d v | cmpImm a v | storeAbs s addr =>
    exact decode_wordOfFields rfl nofun nofun nofun (by simp [instrOfFields, hnum _ rfl])
  | addReg d s | sub d s | cmpReg a s | load d s | storeReg s t =>
    exact decode_wordOfFields rfl nofun (fun _ => bHigh_regAsWord N _) nofun
      (by simp [instrOfFields, bLow_regAsWord hN])

/-- The word of the instruction of legal fields has these fields (30_encoding R87). -/
theorem encode_instrOfFields {op : OpCode} {m : Bool} {a : BitVec 3} {b : Word N} (hm : allowedM op m = true)
    (ha : aUse op = .unused → a = 0) (hreg : bUse op m = .register → bHigh b = 0)
    (hun : bUse op m = .unused → b = 0) :
    encode N (instrOfFields op m (regOfField a) b) = wordOfFields op m a b := by
  have hb : bUse op m = .register → regAsWord N (regOfField (bLow b)) = b := fun h => setWidth_bLow (hreg h)
  cases m with
  | false =>
    cases op with
    | mov | jmp | jz => cases hm
    | add | sub | cmp | load | store => simp [encode, instrOfFields, hb rfl]
    | halt => simp [encode, instrOfFields, ha rfl, hun rfl]
    | print => simp [encode, instrOfFields, hun rfl]
  | true =>
    cases op with
    | sub | load | halt | print => cases hm
    | mov | add | cmp | store => simp [encode, instrOfFields]
    | jmp | jz => simp [encode, instrOfFields, ha rfl]

/-- A number read from a field of N bits is below 2^N (30_encoding R84, R85). -/
theorem bFits_instrOfFields (op : OpCode) (m : Bool) (a : Reg) (b : Word N) :
    bFits N (instrOfFields op m a b) = true := by
  cases op <;> cases m <;> simp [bFits, numberInB, instrOfFields, b.isLt]

/-- A word that decodes is the word of its instruction (30_encoding R94). -/
theorem encode_of_decode {w : InstrWord N} {i : Instr} (h : decode w = .ok i) : encode N i = w := by
  obtain ⟨op, ho, hm, ⟨hrsv, ha, hreg, hun⟩, rfl⟩ := (decode_eq_ok_iff w i).mp h
  rw [encode_instrOfFields hm ha hreg hun, wordOfFields_of_fields ho hrsv]

theorem wellFormed_of_decode {w : InstrWord N} {i : Instr} (h : decode w = .ok i) : wellFormed N i = true := by
  have hw : wellFormedWord w = true := (wellFormedWordDecodes N w).mpr ⟨i, h⟩
  rw [wellFormed, encode_of_decode h, hw, Bool.and_true]
  obtain ⟨op, -, -, -, rfl⟩ := (decode_eq_ok_iff w i).mp h
  exact bFits_instrOfFields _ _ _ _

/-- Settles O3: of the premise only the fit of the number in B is needed, and of the width that it holds an index. -/
theorem decodeEncode : Obligations.DecodeEncode := by
  intro N i hN h
  rw [wellFormed, Bool.and_eq_true] at h
  exact decode_encode (by omega) h.1

/-- Settles O4: encoding and decoding are inverse to each other between well-formed instructions and words that
decode. -/
theorem wordIsOneInstructionOrMalformed : Obligations.WordIsOneInstructionOrMalformed := by
  refine fun N w hN => ⟨fun i hi => ⟨wellFormed_of_decode hi, encode_of_decode hi, fun j hj hjw => ?_⟩,
    fun ⟨code, hc⟩ i hi hiw => ?_, fun hno => ?_⟩
  · have hback := decodeEncode N j hN hj
    rw [hjw, hi] at hback
    exact (Except.ok.inj hback).symm
  · have hback := decodeEncode N i hN hi
    rw [hiw, hc] at hback
    cases hback
  · cases hd : decode w with
    | error code => exact ⟨code, rfl⟩
    | ok i => exact absurd (encode_of_decode hd) (hno i (wellFormed_of_decode hd))

theorem toNat_append_eq_add {m n : Nat} (x : BitVec m) (y : BitVec n) :
    (x ++ y).toNat = x.toNat * 2 ^ n + y.toNat := by
  rw [BitVec.toNat_append, ← Nat.shiftLeft_add_eq_or_of_lt y.isLt, Nat.shiftLeft_eq]

/-- The number of a word of given fields (30_encoding R81). -/
theorem toNat_wordOfParts (op : BitVec 4) (m : Bool) (a : BitVec 3) (rsv : BitVec 8) (b : Word N) :
    (wordOfParts op m a rsv b).toNat =
      op.toNat * 2 ^ (N + 12) + m.toNat * 2 ^ (N + 11) + a.toNat * 2 ^ (N + 8) + rsv.toNat * 2 ^ N + b.toNat := by
  simp only [wordOfParts, BitVec.toNat_cast, toNat_append_eq_add, BitVec.toNat_ofBool]
  ring

/-- Settles O2: a word is the word of its fields, whose number is the sum. -/
theorem fieldsPlaced : Obligations.FieldsPlaced := by
  intro N w
  rw [← toNat_wordOfParts, ← word_of_its_fields]

/-- Settles O1: each word, decoded. -/
theorem specWordsDecode : Obligations.SpecWordsDecode := by
  unfold Obligations.SpecWordsDecode
  decide

/-- The all-zeros word is a MOV of mode 0 (30_encoding R95). -/
theorem decode_zero (N : Nat) : decode (0 : InstrWord N) = .error .illegalMode := by
  have hop : opCodeOf (opField (0 : InstrWord N)) = some .mov := by simp [opField, opCodeOf]
  exact decode_of_modeNotAllowed hop (by simp [mField, allowedM])

end Sys2Proof

namespace Sys2Proof.Machine

/-- Settles O40: the fetched word is one of the zeros, which takes the fatal path. -/
theorem allZerosWordFaults : Obligations.AllZerosWordFaults := by
  refine ⟨rfl, fun N => ⟨decode_zero N, fun s n hs hp hpc => ?_⟩⟩
  have hf : s.fetch = some 0 := by simp [CoreState.fetch, hp, hpc]
  exact ⟨_, step_of_malformed ((not_terminal_iff _).mpr hs) hf (decode_zero N), rfl, rfl⟩

end Sys2Proof.Machine
end

section
/-! SUPPORT. The assembler (30_encoding sections 5 and 6): what its operand rules answer inside and outside their
ranges (R100), that an assembled instruction has the given opcode and fits, and what is refused (R101). -/

namespace Sys2Proof.Machine

variable {N : Nat}

/-! ### Operands, inside and outside their ranges (30_encoding R100) -/

/-- A register index in 0..7 is the register of its 3 bits. -/
theorem asmReg_of_inRange {k : Int} (h0 : 0 ≤ k) (h7 : k ≤ 7) : asmReg k = .ok (regOfField (BitVec.ofInt 3 k)) := by
  rw [asmReg, if_pos ⟨h0, h7⟩]
  interval_cases k <;> rfl

theorem asmReg_of_outOfRange {k : Int} (h : k < 0 ∨ 7 < k) : asmReg k = .error .registerRange :=
  if_neg (by omega)

theorem asmImm_of_inRange {v : Int} (hlo : -2 ^ (N - 1) ≤ v) (hhi : v ≤ 2 ^ (N - 1) - 1) :
    asmImm N v = .ok (BitVec.ofInt N v).toNat :=
  if_pos (by exact_mod_cast And.intro hlo hhi)

theorem asmImm_of_outOfRange {v : Int} (h : v < -2 ^ (N - 1) ∨ 2 ^ (N - 1) - 1 < v) :
    asmImm N v = .error .immediateRange := by
  refine if_neg ?_
  push_cast
  omega

theorem asmIndex_of_inRange {t : Int} (h0 : 0 ≤ t) (hhi : t ≤ 2 ^ N - 1) : asmIndex N t = .ok t.toNat :=
  if_pos (by exact_mod_cast And.intro h0 hhi)

theorem asmIndex_of_outOfRange {t : Int} (h : t < 0 ∨ 2 ^ N - 1 < t) : asmIndex N t = .error .indexRange := by
  refine if_neg ?_
  push_cast
  omega

/-- At a width of at least 12 the small operands 0..7 of the magnitude rule are inside the ranges of an immediate. -/
theorem seven_lt_immediateBound (hN : 12 ≤ N) : (7 : Int) < 2 ^ (N - 1) - 1 := by
  have hpow : (2 : Int) ^ 11 ≤ 2 ^ (N - 1) := pow_le_pow_right₀ (by decide) (by omega)
  omega

theorem immediateBound_le_indexBound : (2 : Int) ^ (N - 1) ≤ 2 ^ N := pow_le_pow_right₀ (by decide) (by omega)

/-! ### The B field of assembled operands -/

/-- A small index in the B field of a register operand is the index modulo 2^N (30_encoding R83, R100). -/
theorem regAsWord_of_inRange {o : Int} (h0 : 0 ≤ o) (h7 : o ≤ 7) :
    regAsWord N (regOfField (BitVec.ofInt 3 o)) = BitVec.ofInt N o := by
  obtain ⟨n, rfl⟩ := Int.eq_ofNat_of_zero_le h0
  have hmod : n % 8 = n := by omega
  apply BitVec.eq_of_toNat_eq
  simp [regAsWord, hmod]

/-- A target or address in range is its own B field (30_encoding R85). -/
theorem ofNat_toNat_of_nonneg {t : Int} (h : 0 ≤ t) : BitVec.ofNat N t.toNat = BitVec.ofInt N t := by
  obtain ⟨n, rfl⟩ := Int.eq_ofNat_of_zero_le h
  simp

/-! ### Two operands together -/

@[simp] theorem asmBoth_ok {α β : Type} (a : α) (b : β) (f : α → β → Instr) :
    asmBoth (.ok a) (.ok b) f = .ok (f a b) := rfl

@[simp] theorem asmBoth_error_left {α β : Type} (e : AsmRefusal) (y : Except AsmRefusal β) (f : α → β → Instr) :
    asmBoth (.error e) y f = .error e := rfl

theorem asmBoth_error_right {α β : Type} (x : Except AsmRefusal α) (e : AsmRefusal) (f : α → β → Instr) :
    ∃ e', asmBoth x (.error e) f = .error e' := by
  cases x with
  | error e' => exact ⟨e', rfl⟩
  | ok a => exact ⟨e, rfl⟩

@[simp] theorem asmRegister_reg (r : Reg) : asmRegister (.reg r) = .ok r := rfl

@[simp] theorem asmRegister_bare (k : Int) : asmRegister (.bare k) = asmReg k := rfl

/-! ### The magnitude rule for a bare operand (30_encoding R100) -/

section
variable {v : Int} (d : AsmOperand)

theorem asmAdd_of_small (h0 : 0 ≤ v) (h7 : v ≤ 7) :
    asmAdd N d (.bare v) = asmBoth (asmRegister d) (asmReg v) .addReg := if_pos ⟨h0, h7⟩

theorem asmAdd_of_large (h : v < 0 ∨ 7 < v) :
    asmAdd N d (.bare v) = asmBoth (asmRegister d) (asmImm N v) .addImm := if_neg (by omega)

theorem asmCmp_of_neg (h : v < 0) : asmCmp N d (.bare v) = .error .negativeCmp := if_pos h

theorem asmCmp_of_small (h0 : 0 ≤ v) (h7 : v ≤ 7) :
    asmCmp N d (.bare v) = asmBoth (asmRegister d) (asmReg v) .cmpReg := (if_neg h0.not_gt).trans (if_pos h7)

theorem asmCmp_of_large (h : 7 < v) : asmCmp N d (.bare v) = asmBoth (asmRegister d) (asmImm N v) .cmpImm :=
  (if_neg (by omega)).trans (if_neg h.not_ge)

theorem asmStore_of_neg (h : v < 0) : asmStore N d (.bare v) = .error .negativeStore := if_pos h

theorem asmStore_of_small (h0 : 0 ≤ v) (h7 : v ≤ 7) :
    asmStore N d (.bare v) = asmBoth (asmRegister d) (asmReg v) .storeReg := (if_neg h0.not_gt).trans (if_pos h7)

theorem asmStore_of_large (h : 7 < v) :
    asmStore N d (.bare v) = asmBoth (asmRegister d) (asmIndex N v) .storeAbs :=
  (if_neg (by omega)).trans (if_neg h.not_ge)

end

/-! ### From the instruction to its word -/

/-- The word of a legacy instruction is that of the instruction its operands, read as bare integers, assemble to. -/
theorem legacyWord_eq_map (N : Nat) (l : LegacyInstr) :
    legacyWord N l = (assembleInstr N l.operation (l.args.map .bare)).map (encode N) := by
  cases h : assembleInstr N l.operation (l.args.map .bare) <;> simp [legacyWord, assembleLegacy, h, Except.map]

theorem legacyWord_of_error {l : LegacyInstr} (h : ∃ e, assembleInstr N l.operation (l.args.map .bare) = .error e) :
    ∃ e, legacyWord N l = .error e := by
  obtain ⟨e, he⟩ := h
  exact ⟨e, by rw [legacyWord_eq_map, he]; rfl⟩

/-- Settles O59: each tagged operand assembles as what it is tagged as, whatever its magnitude. -/
theorem taggedForms : Obligations.TaggedForms := by
  refine ⟨fun N d s => ⟨rfl, rfl, rfl, rfl, rfl, rfl, rfl⟩, fun N d v hlo hhi => ?_, fun N d x h0 hhi => ?_⟩
  · simp [assembleInstr, asmMov, asmAdd, asmCmp, asmImm_of_inRange hlo hhi]
  · simp [assembleInstr, asmStore, asmTarget, asmIndex_of_inRange h0 hhi]

/-- The word of a legacy instruction of two operands, the first a register in range, from what its row makes of the
second. -/
theorem legacyWord_of_both {β : Type} {op : OpCode} {k o : Int} {y : Except AsmRefusal β} {f : Reg → β → Instr} {b : β}
    {w : InstrWord N} (id text : String) (h0 : 0 ≤ k) (h7 : k ≤ 7)
    (hrow : assembleInstr N op [.bare k, .bare o] = asmBoth (asmReg k) y f) (hy : y = .ok b)
    (hw : encode N (f (regOfField (BitVec.ofInt 3 k)) b) = w) : legacyWord N ⟨id, op, [k, o], text⟩ = .ok w := by
  simp [legacyWord_eq_map, Except.map, hrow, asmReg_of_inRange h0 h7, hy, hw]

/-- Settles O56: in each row the operands are in range, and the fields are those of the assembled instruction. -/
theorem legacyMapping : Obligations.LegacyMapping := by
  refine ⟨fun N id text k o hN hk0 hk7 => ?_, fun N id text x h0 hhi => ?_, fun N id text => rfl⟩
  · have himm : BitVec.ofNat N (BitVec.ofInt N o).toNat = BitVec.ofInt N o := by
      rw [BitVec.ofNat_toNat, BitVec.setWidth_eq]
    refine ⟨fun hlo hhi => ?_, fun h0 h7 => ?_, fun hlo hhi hbig => ?_, fun h0 h7 => ?_, fun h0 h7 => ?_,
      fun hbig hhi => ?_, fun h0 h7 => ?_, fun h0 h7 => ?_, fun hbig hhi => ?_, ?_⟩
    · exact legacyWord_of_both id text hk0 hk7 rfl (asmImm_of_inRange hlo hhi)
        (congrArg (wordOfFields .mov true _) himm)
    · exact legacyWord_of_both id text hk0 hk7 (asmAdd_of_small _ h0 h7) (asmReg_of_inRange h0 h7)
        (congrArg (wordOfFields .add false _) (regAsWord_of_inRange h0 h7))
    · exact legacyWord_of_both id text hk0 hk7 (asmAdd_of_large _ hbig) (asmImm_of_inRange hlo hhi)
        (congrArg (wordOfFields .add true _) himm)
    · exact legacyWord_of_both id text hk0 hk7 rfl (asmReg_of_inRange h0 h7)
        (congrArg (wordOfFields .sub false _) (regAsWord_of_inRange h0 h7))
    · exact legacyWord_of_both id text hk0 hk7 (asmCmp_of_small _ h0 h7) (asmReg_of_inRange h0 h7)
        (congrArg (wordOfFields .cmp false _) (regAsWord_of_inRange h0 h7))
    · have hbound := seven_lt_immediateBound hN
      exact legacyWord_of_both id text hk0 hk7 (asmCmp_of_large _ hbig) (asmImm_of_inRange (by omega) hhi)
        (congrArg (wordOfFields .cmp true _) himm)
    · exact legacyWord_of_both id text hk0 hk7 rfl (asmReg_of_inRange h0 h7)
        (congrArg (wordOfFields .load false _) (regAsWord_of_inRange h0 h7))
    · exact legacyWord_of_both id text hk0 hk7 (asmStore_of_small _ h0 h7) (asmReg_of_inRange h0 h7)
        (congrArg (wordOfFields .store false _) (regAsWord_of_inRange h0 h7))
    · have h0 : 0 ≤ o := by omega
      exact legacyWord_of_both id text hk0 hk7 (asmStore_of_large _ hbig) (asmIndex_of_inRange h0 hhi)
        (congrArg (wordOfFields .store true _) (ofNat_toNat_of_nonneg h0))
    · simp [legacyWord_eq_map, Except.map, assembleInstr, asmPrint, asmReg_of_inRange hk0 hk7, encode]
  · simp [legacyWord_eq_map, Except.map, assembleInstr, asmTarget, asmIndex_of_inRange h0 hhi, encode,
      ofNat_toNat_of_nonneg h0]

/-! ### What an assembled instruction is -/

/-- An instruction of the given operation whose number in B fits. -/
def IsFitting (N : Nat) (op : OpCode) (i : Instr) : Prop := opCodeOfInstr i = op ∧ bFits N i = true

theorem asmImm_lt {v : Int} {n : Nat} (h : asmImm N v = .ok n) : n < 2 ^ N := by
  unfold asmImm at h
  split at h
  · cases h
    exact BitVec.isLt _
  · cases h

theorem asmIndex_lt {t : Int} {n : Nat} (h : asmIndex N t = .ok n) : n < 2 ^ N := by
  unfold asmIndex at h
  split at h
  next hr =>
    cases h
    have hle := hr.2
    omega
  · cases h

theorem isFitting_of_lt {op : OpCode} {i : Instr} (hop : opCodeOfInstr i = op) {v : Nat} (hv : numberInB i = some v)
    (hlt : v < 2 ^ N) : IsFitting N op i :=
  ⟨hop, by simp [bFits, hv, hlt]⟩

/-- Two operands make a fitting instruction when every value of the second does. -/
theorem asmBoth_fits {α β : Type} {op : OpCode} {x : Except AsmRefusal α} {y : Except AsmRefusal β}
    {f : α → β → Instr} {i : Instr} (h : asmBoth x y f = .ok i) (hf : ∀ a b, y = .ok b → IsFitting N op (f a b)) :
    IsFitting N op i := by
  cases x with
  | error e => cases h
  | ok a =>
    cases y with
    | error e => cases h
    | ok b =>
      cases h
      exact hf a b rfl

section
variable {d o : AsmOperand} {i : Instr}

theorem asmMov_fits (h : asmMov N d o = .ok i) : IsFitting N .mov i := by
  cases o with
  | imm v | bare v => exact asmBoth_fits h (fun _ _ hb => isFitting_of_lt rfl rfl (asmImm_lt hb))
  | reg r | label name => cases h

theorem asmAdd_fits (h : asmAdd N d o = .ok i) : IsFitting N .add i := by
  cases o with
  | reg r => exact asmBoth_fits h (fun _ _ _ => ⟨rfl, rfl⟩)
  | imm v => exact asmBoth_fits h (fun _ _ hb => isFitting_of_lt rfl rfl (asmImm_lt hb))
  | bare v =>
    simp only [asmAdd] at h
    split at h
    · exact asmBoth_fits h (fun _ _ _ => ⟨rfl, rfl⟩)
    · exact asmBoth_fits h (fun _ _ hb => isFitting_of_lt rfl rfl (asmImm_lt hb))
  | label name => cases h

theorem asmCmp_fits (h : asmCmp N d o = .ok i) : IsFitting N .cmp i := by
  cases o with
  | reg r => exact asmBoth_fits h (fun _ _ _ => ⟨rfl, rfl⟩)
  | imm v => exact asmBoth_fits h (fun _ _ hb => isFitting_of_lt rfl rfl (asmImm_lt hb))
  | bare v =>
    simp only [asmCmp] at h
    split_ifs at h
    · exact asmBoth_fits h (fun _ _ _ => ⟨rfl, rfl⟩)
    · exact asmBoth_fits h (fun _ _ hb => isFitting_of_lt rfl rfl (asmImm_lt hb))
  | label name => cases h

theorem asmStore_fits (h : asmStore N d o = .ok i) : IsFitting N .store i := by
  cases o with
  | reg r => exact asmBoth_fits h (fun _ _ _ => ⟨rfl, rfl⟩)
  | imm v => exact asmBoth_fits h (fun _ _ hb => isFitting_of_lt rfl rfl (asmIndex_lt hb))
  | bare v =>
    simp only [asmStore] at h
    split_ifs at h
    · exact asmBoth_fits h (fun _ _ _ => ⟨rfl, rfl⟩)
    · exact asmBoth_fits h (fun _ _ hb => isFitting_of_lt rfl rfl (asmIndex_lt hb))
  | label name => cases h

theorem asmTarget_fits {op : OpCode} {f : Nat → Instr} (hop : ∀ t, opCodeOfInstr (f t) = op)
    (hf : ∀ t, numberInB (f t) = some t) (h : asmTarget N o f = .ok i) : IsFitting N op i := by
  cases o with
  | bare t =>
    simp only [asmTarget] at h
    split at h
    · cases h
    next n hn =>
      cases h
      exact isFitting_of_lt (hop n) (hf n) (asmIndex_lt hn)
  | reg r | imm v | label name => cases h

theorem asmPrint_fits (h : asmPrint o = .ok i) : IsFitting N .print i := by
  unfold asmPrint at h
  split at h
  · cases h
  · cases h
    exact ⟨rfl, rfl⟩

end

/-- An assembled instruction is of the given operation, and its number in B fits (30_encoding R97, R100). -/
theorem assembleInstr_fits {op : OpCode} {operands : List AsmOperand} {i : Instr}
    (h : assembleInstr N op operands = .ok i) : IsFitting N op i := by
  unfold assembleInstr at h
  split at h
  · exact asmMov_fits h
  · exact asmAdd_fits h
  · exact asmBoth_fits h (fun _ _ _ => ⟨rfl, rfl⟩)
  · exact asmCmp_fits h
  · exact asmTarget_fits (fun _ => rfl) (fun _ => rfl) h
  · exact asmTarget_fits (fun _ => rfl) (fun _ => rfl) h
  · exact asmBoth_fits h (fun _ _ _ => ⟨rfl, rfl⟩)
  · exact asmStore_fits h
  · cases h
    exact ⟨rfl, rfl⟩
  · exact asmPrint_fits h
  all_goals cases h

/-- Settles O58: the word of a legacy instruction is that of a fitting instruction, which the decoder reads back. -/
theorem legacyWordsDecode : Obligations.LegacyWordsDecode := by
  intro N l w hN h
  rw [legacyWord_eq_map] at h
  cases hi : assembleInstr N l.operation (l.args.map .bare) with
  | error e =>
    rw [hi] at h
    cases h
  | ok i =>
    rw [hi] at h
    cases h
    obtain ⟨hop, hb⟩ := assembleInstr_fits hi
    exact ⟨i, decode_encode (by omega) hb, hop⟩

/-! ### Refusals (30_encoding R101) -/

/-- The number of operands of an operation (30_encoding R97, R100). -/
def arity : OpCode → Nat
  | .mov | .add | .sub | .cmp | .load | .store => 2
  | .jmp | .jz | .print => 1
  | .halt => 0

theorem assembleInstr_of_length_ne {op : OpCode} {operands : List AsmOperand} (h : operands.length ≠ arity op) :
    assembleInstr N op operands = .error .arity := by
  unfold assembleInstr
  split
  any_goals exact absurd rfl h
  all_goals rfl

/-- A first operand that is no register refuses every operation of two operands. -/
theorem assembleInstr_of_bad_first {d : AsmOperand} {e : AsmRefusal} (hd : asmRegister d = .error e) (o : Int)
    {op : OpCode} (hop : arity op = 2) : ∃ e', assembleInstr N op [d, .bare o] = .error e' := by
  cases op with
  | mov | sub | load | add => exact ⟨e, by simp [assembleInstr, asmMov, asmAdd, hd]⟩
  | cmp =>
    simp only [assembleInstr, asmCmp, hd, asmBoth_error_left, ite_self]
    split <;> exact ⟨_, rfl⟩
  | store =>
    simp only [assembleInstr, asmStore, hd, asmBoth_error_left, ite_self]
    split <;> exact ⟨_, rfl⟩
  | jmp | jz | halt | print => cases hop

/-- An operand of an immediate row outside the signed range is refused (30_encoding R101). -/
theorem assembleInstr_of_bad_immediate (hN : 12 ≤ N) (d : AsmOperand) {v : Int}
    (h : v < -2 ^ (N - 1) ∨ 2 ^ (N - 1) - 1 < v) {op : OpCode} (hop : op = .mov ∨ op = .add ∨ op = .cmp) :
    ∃ e, assembleInstr N op [d, .bare v] = .error e := by
  have h7 := seven_lt_immediateBound hN
  have himm := asmImm_of_outOfRange h
  have hlarge : v < 0 ∨ 7 < v := by omega
  obtain rfl | rfl | rfl := hop
  · simpa only [assembleInstr, asmMov, himm] using asmBoth_error_right _ _ _
  · simpa only [assembleInstr, asmAdd_of_large _ hlarge, himm] using asmBoth_error_right _ _ _
  · obtain hneg | hpos := hlarge
    · exact ⟨_, asmCmp_of_neg d hneg⟩
    · simpa only [assembleInstr, asmCmp_of_large _ hpos, himm] using asmBoth_error_right _ _ _

theorem legacyProgram_of_refused {ls : List LegacyInstr} {l : LegacyInstr} {e : AsmRefusal} (hl : l ∈ ls)
    (he : legacyWord N l = .error e) : ∃ e', legacyProgram N ls = .error e' := by
  induction ls with
  | nil => cases hl
  | cons x rest ih =>
    obtain rfl | hrest := List.mem_cons.mp hl
    · exact ⟨e, by simp [legacyProgram, he]⟩
    · obtain ⟨e', he'⟩ := ih hrest
      cases hx : legacyWord N x with
      | error e'' => exact ⟨e'', by simp [legacyProgram, hx]⟩
      | ok w => exact ⟨e', by simp [legacyProgram, hx, he']⟩

/-- Settles O57: each refusal is that of one operand rule, or of the number of operands. -/
theorem legacyRefusals : Obligations.LegacyRefusals := by
  refine ⟨fun N l h => ?_, fun N id text k o hk => ?_, fun N id text k o hN => ?_,
    fun N ls l e hl he => legacyProgram_of_refused hl he⟩
  · refine legacyWord_of_error ⟨.arity, assembleInstr_of_length_ne ?_⟩
    rw [List.length_map]
    obtain ⟨hop | hop | hop | hop | hop | hop, hlen⟩ | ⟨hop | hop | hop, hlen⟩ | ⟨hop, hlen⟩ := h
    all_goals rwa [hop]
  · have hreg : asmRegister (.bare k) = .error .registerRange := asmReg_of_outOfRange hk
    refine ⟨fun op hop => legacyWord_of_error (assembleInstr_of_bad_first hreg o ?_), legacyWord_of_error ?_,
      legacyWord_of_error ?_, legacyWord_of_error ⟨_, by simp [assembleInstr, asmPrint, hreg]; rfl⟩⟩
    · obtain rfl | rfl | rfl | rfl | rfl | rfl := hop <;> rfl
    · simpa [assembleInstr, hreg] using asmBoth_error_right _ _ _
    · simpa [assembleInstr, hreg] using asmBoth_error_right _ _ _
  · have h7 := seven_lt_immediateBound hN
    have hle := immediateBound_le_indexBound (N := N)
    refine ⟨fun h => legacyWord_of_error ⟨_, asmCmp_of_neg _ h⟩, fun h => legacyWord_of_error ⟨_, asmStore_of_neg _ h⟩,
      fun h => legacyWord_of_error ?_, fun h => ?_, fun h => ?_⟩
    · have hlarge : 7 < o := by omega
      have hidx := asmIndex_of_outOfRange (N := N) (.inr h)
      simpa [assembleInstr, asmStore_of_large _ hlarge, hidx] using asmBoth_error_right _ _ _
    · have hidx := asmIndex_of_outOfRange h
      exact ⟨legacyWord_of_error ⟨_, by simp [assembleInstr, asmTarget, hidx]; rfl⟩,
        legacyWord_of_error ⟨_, by simp [assembleInstr, asmTarget, hidx]; rfl⟩⟩
    · exact ⟨legacyWord_of_error (assembleInstr_of_bad_immediate hN _ h (.inl rfl)),
        legacyWord_of_error (assembleInstr_of_bad_immediate hN _ h (.inr (.inl rfl))),
        legacyWord_of_error (assembleInstr_of_bad_immediate hN _ h (.inr (.inr rfl)))⟩

end Sys2Proof.Machine
end

section
/-! SUPPORT. The step of 40_cycle: that every state has one, what it counts, which phases come before execute, where
`pc` is after it, what it shows on its ports, and that the host's moves keep the invariant. -/

namespace Sys2Proof.Machine

variable {N : Nat}

/-- Settles O30: a step answers a next state of its width in each of its cases. -/
theorem stepTotal : Obligations.StepTotal := by
  rintro ⟨N, s⟩
  obtain ⟨t, ht⟩ := step_completes s
  exact ⟨_, ht, rfl⟩

/-- Settles O31: a status on which a run has ended is a terminal one. -/
theorem terminalStepChangesNothing : Obligations.TerminalStepChangesNothing :=
  fun _ s hs => step_of_terminal ((terminal_iff s.status).mpr hs)

/-- Settles O37: past the end no word is fetched. -/
theorem fetchPastEndHalts : Obligations.FetchPastEndHalts :=
  fun _ s hs hpc => step_of_pastEnd ((not_terminal_iff _).mpr hs) (s.fetch_eq_none_iff.mpr hpc)

/-- Settles O38: the phases before execute, written out. -/
theorem stepRunsDecoded : Obligations.StepRunsDecoded :=
  fun _ _ _ _ hs hf hd => step_of_decoded ((not_terminal_iff _).mpr hs) hf hd

/-! ### The cycle count and the temperature (40_cycle R122, R131) -/

/-- A step that fetches a word counts the cycle and raises the temperature by its draw, whatever the word. -/
theorem step_of_fetch {s : CoreState N} {w : InstrWord N} (hs : s.status.terminal = false) (hf : s.fetch = some w) :
    ∃ t : CoreState N, step ⟨N, s⟩ = .next ⟨N, t⟩ ∧ t.cycleCount = s.cycleCount + 1 ∧
      t.temperature = raiseTemperature s.temperature (Config.delta (s.draws + 1)) := by
  cases hd : decode w with
  | error code => exact ⟨_, step_of_malformed hs hf hd, rfl, rfl⟩
  | ok i =>
    obtain ⟨t, hx⟩ := exec_completes i (s.countCycle.beginInstruction w)
    have hsame := exec_sameControl hx
    exact ⟨t, (step_of_decoded hs hf hd).trans hx, hsame.cycleCount, hsame.temperature⟩

/-- Settles O35: the cycle is counted past the end too, and the counter has 32 bits. -/
theorem cycleCounted : Obligations.CycleCounted := by
  intro N s hs
  have hs := (not_terminal_iff _).mpr hs
  obtain ⟨t, ht, hcount⟩ : ∃ t : CoreState N, step ⟨N, s⟩ = .next ⟨N, t⟩ ∧ t.cycleCount = s.cycleCount + 1 := by
    cases hf : s.fetch with
    | none => exact ⟨_, step_of_pastEnd hs hf, rfl⟩
    | some w =>
      obtain ⟨t, ht, hcount, -⟩ := step_of_fetch hs hf
      exact ⟨t, ht, hcount⟩
  exact ⟨t, ht, hcount ▸ BitVec.toNat_add _ _⟩

/-- Settles O41: the rise is the draw `delta` on a fetched word, and no other step writes the temperature. -/
theorem temperatureRise : Obligations.TemperatureRise := by
  refine ⟨fun N s w hs hf => ?_, fun N s h => ?_⟩
  · obtain ⟨t, ht, -, htemp⟩ := step_of_fetch ((not_terminal_iff _).mpr hs) hf
    obtain ⟨hlow, hhigh⟩ := Config.delta_bounds (s.draws + 1)
    exact ⟨t, _, ht, hlow, hhigh, htemp⟩
  · cases hs : s.status.terminal with
    | true => exact ⟨s, step_of_terminal hs, rfl⟩
    | false =>
      have hpc : s.program.length ≤ s.pc.toNat := by
        obtain h | h | h := h
        · simp [h] at hs
        · simp [h] at hs
        · exact h
      exact ⟨_, step_of_pastEnd hs (s.fetch_eq_none_iff.mpr hpc), rfl⟩

/-! ### Status and `pc` after an instruction (40_cycle R123, R136) -/

/-- Settles O36: no phase of a step reads which of IDLE and RUNNING it is, and only HALT leaves RUNNING. -/
theorem idleStepsAsRunning : Obligations.IdleStepsAsRunning := by
  refine ⟨fun N s => step_setStatus (s := { s with status := .running }) (st := .idle) rfl rfl,
    fun N s i hi hne => ?_⟩
  obtain ⟨w, hstep⟩ := step_of_nextInstr hi
  obtain ⟨t, hx⟩ := exec_completes i (s.countCycle.beginInstruction w)
  exact ⟨t, hstep.trans hx, (exec_status hx).trans (if_neg hne)⟩

/-- An instruction that neither halts nor jumps advances `pc` (40_cycle R135, R136). -/
theorem exec_pc_of_sequential {i : Instr} {s t : CoreState N} (h : exec i ⟨N, s⟩ = .next ⟨N, t⟩)
    (hs : s.status = .running) (hhalt : i ≠ .halt) (hjmp : ∀ x, i ≠ .jmp x) (hjz : ∀ x, i ≠ .jz x) :
    t.pc = s.nextPc := by
  cases i with
  | halt => exact absurd rfl hhalt
  | jmp x => exact absurd rfl (hjmp x)
  | jz x => exact absurd rfl (hjz x)
  | load d r => cases h; exact if_pos ((loadFrom_status d _ s).trans hs)
  | storeReg r x => cases h; exact if_pos ((storeTo_status _ _ s).trans hs)
  | storeAbs r addr => cases h; exact if_pos ((storeTo_status _ _ s).trans hs)
  | _ => cases h; exact if_pos hs

/-- Inside a loadable program the advance does not wrap (10_state R28). -/
theorem nextPc_toNat {s : CoreState N} (hL : s.program.length ≤ 2 ^ N - 1) (hpc : s.pc.toNat < s.program.length) :
    s.nextPc.toNat = s.pc.toNat + 1 := by
  have hlt : s.pc.toNat + 1 < 2 ^ N := by omega
  simp [CoreState.nextPc, Nat.mod_eq_of_lt hlt]

/-- The number in B of a decoded instruction fits its field (30_encoding R85). -/
theorem toNat_jumpTarget_of_decode {w : InstrWord N} {i : Instr} (h : decode w = .ok i) {x : Nat}
    (hx : numberInB i = some x) : (jumpTarget N x).toNat = x := by
  have hwf := wellFormed_of_decode h
  rw [wellFormed, Bool.and_eq_true] at hwf
  exact toNat_ofNat_of_bFits hwf.1 hx

/-- Settles O42: a decoded target fits its field, and below the program's end the advance does not wrap. -/
theorem pcAfterStep : Obligations.PcAfterStep := by
  intro N s i hL hi
  obtain ⟨hs, w, hf, hd⟩ := nextInstr_eq_some_iff.mp hi
  obtain ⟨t, hx⟩ := exec_completes i (s.countCycle.beginInstruction w)
  have hnext : s.nextPc.toNat = s.pc.toNat + 1 := nextPc_toNat hL (CoreState.lt_of_fetch hf)
  refine ⟨t, (step_of_decoded hs hf hd).trans hx, ?_⟩
  cases i with
  | halt => cases hx; rfl
  | jmp x => cases hx; exact toNat_jumpTarget_of_decode hd rfl
  | jz x =>
    have hpc : t.pc = if s.z then jumpTarget N x else s.nextPc := by cases hx; rfl
    rw [hpc]
    cases s.z with
    | true => exact toNat_jumpTarget_of_decode hd rfl
    | false => exact hnext
  | _ => exact (congrArg BitVec.toNat (exec_pc_of_sequential hx rfl nofun nofun nofun)).trans hnext

/-! ### The ports of a step, in its four cases (40_cycle R139) -/

theorem stepPorts_of_terminal {s : CoreState N} (h : s.status.terminal = true) :
    stepPorts s = ⟨none, none, none⟩ := by
  simp [stepPorts, h]

theorem stepPorts_of_pastEnd {s : CoreState N} (hf : s.fetch = none) : stepPorts s = ⟨none, none, none⟩ := by
  simp [stepPorts, hf]

theorem stepPorts_of_malformed {s : CoreState N} {w : InstrWord N} {code : Malformed}
    (h : s.status.terminal = false) (hf : s.fetch = some w) (hd : decode w = .error code) :
    stepPorts s = ⟨some s.pc, none, optTrace N (opField w) (s.draws + 1)⟩ := by
  simp [stepPorts, h, hf, hd]

theorem stepPorts_of_decoded {s : CoreState N} {w : InstrWord N} {i : Instr} (h : s.status.terminal = false)
    (hf : s.fetch = some w) (hd : decode w = .ok i) :
    stepPorts s = ⟨some s.pc, dmAccess i (s.countCycle.beginInstruction w),
      instrEvent i (s.countCycle.beginInstruction w)⟩ := by
  simp [stepPorts, h, hf, hd]

/-- Settles O44: the table's event is the one that the step's case puts on the trace port. -/
theorem eventsPerStep : Obligations.EventsPerStep := by
  intro N s
  obtain ⟨t, ht⟩ := step_completes s
  refine ⟨t, ht, ?_⟩
  obtain ⟨hs, ho⟩ | ⟨-, hf, ho⟩ | ⟨w, code, hs, hf, hd, ho⟩ | ⟨w, i, hs, hf, hd, ho⟩ := step_cases ht
  · cases ho
    simp [stepPorts_of_terminal hs]
  · cases ho
    simp [stepPorts_of_pastEnd hf]
  · cases ho
    rw [stepPorts_of_malformed hs hf hd]
    exact CoreState.fatal_log _ code
  · rw [stepPorts_of_decoded hs hf hd]
    exact exec_log ho.symm

/-! ### The data-memory port (40_cycle R139) -/

/-- The data memory after a step that drives the given access, or none. -/
def Memory.afterPort (m : Memory N) : Option (DmAccess N) → Memory N
  | none => m
  | some p => m.serve p

/-- Ten bits hold the index of a cell (20_memory R50). -/
theorem toNat_setWidth_of_inRange {ea : Word N} (h : inRange ea = true) : (ea.setWidth 10).toNat = ea.toNat := by
  have hlt := (inRange_iff ea).mp h
  rw [BitVec.toNat_setWidth, Nat.mod_eq_of_lt (by omega)]

/-- Serving the access of an instruction writes its cell: the value it stores, or the one it held, and the tick. -/
theorem afterPort_dmAccess_of_inRange {i : Instr} {s : CoreState N} {ea : Word N}
    (hea : effectiveAddress i s = some ea) (hin : inRange ea = true) :
    s.mem.afterPort (dmAccess i s) = accessedMemory i s ea := by
  have hdm : dmAccess i s =
      some ⟨ea.setWidth 10, (storedValue i s).isSome, (storedValue i s).getD 0, true, s.now⟩ := by
    simp [dmAccess, hea, hin]
  rw [hdm, Memory.afterPort, Memory.serve, toNat_setWidth_of_inRange hin, accessedMemory]
  cases storedValue i s with
  | none => rfl
  | some v => rfl

theorem dmAccess_eq_none {i : Instr} {s : CoreState N}
    (h : ∀ ea, effectiveAddress i s = some ea → ¬ inRange ea = true) : dmAccess i s = none := by
  cases hea : effectiveAddress i s with
  | none => simp [dmAccess, hea]
  | some ea => simp [dmAccess, hea, h ea hea]

/-- An instruction's access of the data-memory port is its whole effect on data memory. -/
theorem exec_mem_eq_afterPort {i : Instr} {s t : CoreState N} (h : exec i ⟨N, s⟩ = .next ⟨N, t⟩) :
    t.mem = s.mem.afterPort (dmAccess i s) := by
  by_cases hacc : ∃ ea, effectiveAddress i s = some ea ∧ inRange ea = true
  · obtain ⟨ea, hea, hin⟩ := hacc
    rw [exec_mem_of_inRange h hea hin, afterPort_dmAccess_of_inRange hea hin]
  · have hout : ∀ ea, effectiveAddress i s = some ea → ¬ inRange ea = true := fun ea hea hin => hacc ⟨ea, hea, hin⟩
    rw [exec_mem_of_no_access h hout, dmAccess_eq_none hout, Memory.afterPort]

/-- The data-memory port of a step is its whole effect on data memory. -/
theorem step_mem_eq_afterPort {s t : CoreState N} (h : step ⟨N, s⟩ = .next ⟨N, t⟩) :
    t.mem = s.mem.afterPort (stepPorts s).dm := by
  obtain ⟨hs, ho⟩ | ⟨-, hf, ho⟩ | ⟨w, code, hs, hf, hd, ho⟩ | ⟨w, i, hs, hf, hd, ho⟩ := step_cases h
  · cases ho
    rw [stepPorts_of_terminal hs, Memory.afterPort]
  · cases ho
    rw [stepPorts_of_pastEnd hf]
    rfl
  · cases ho
    rw [stepPorts_of_malformed hs hf hd]
    rfl
  · rw [stepPorts_of_decoded hs hf hd]
    exact exec_mem_eq_afterPort ho.symm

/-- Settles O26: only LOAD and STORE in range drive an access, which writes the cell that `exec` writes. -/
theorem portsExplainMemory : Obligations.PortsExplainMemory := by
  intro N s
  obtain ⟨t, ht⟩ := step_completes s
  refine ⟨t, ht, ?_⟩
  rw [step_mem_eq_afterPort ht]
  cases (stepPorts s).dm with
  | none => rfl
  | some p => rfl

/-! ### The host's moves keep the invariant (40_cycle R141) -/

/-- `rst` establishes every clause of the invariant but those on the two memories, which it does not write. -/
theorem CoreState.inv_resetProcessor {s : CoreState N} (hm : s.mem.wf)
    (hL : s.program.length ≤ Config.maxProgramLength N) : s.resetProcessor.Inv where
  memory := hm
  length := hL
  tempLow := Config.tempInit_bounds.1
  tempHigh := Config.tempInit_bounds.2
  errorSet := by simp
  irEmpty := fun _ => rfl
  precise := by simp

/-- Planted cells leave the power-on memory in canonical form (20_memory R50, R62). -/
theorem writeAll_plantedCells_wf {planted : List (Nat × Nat × Tick)}
    (h : ∀ p ∈ planted, p.1 < Config.memSize ∧ p.2.1 < 2 ^ N) :
    ((CoreState.reset N).mem.writeAll (plantedCells N planted)).wf :=
  Memory.writeAll_wf (Memory.reset_wf N) (List.forall_mem_map.mpr fun p hp => (h p hp).1)

/-- The core after a power-on is one after `rst`, with no program. -/
theorem CoreState.inv_poweredOn (s : CoreState N) {planted : List (Nat × Nat × Tick)}
    (h : ∀ p ∈ planted, p.1 < Config.memSize ∧ p.2.1 < 2 ^ N) : (s.poweredOn planted).Inv :=
  inv_resetProcessor (s := s.poweredOn planted) (writeAll_plantedCells_wf h) (Nat.zero_le _)

/-- The host's write of IDLE or RUNNING, which it makes only where there is no error (10_state R33). -/
theorem CoreState.Inv.setStatus {s : CoreState N} (h : s.Inv) (he : s.lastError = none) {st : Status}
    (hst : st.terminal = false) : ({ s with status := st } : CoreState N).Inv :=
  { h with
    errorSet := by
      have hne : st ≠ .error := by
        rintro rfl
        cases hst
      simp [he, hne]
    precise := by simp [he] }

theorem CoreState.Inv.writeCell {s : CoreState N} (h : s.Inv) {a : Nat} (ha : a < Config.memSize) (c : Cell N) :
    ({ s with mem := s.mem.write a c } : CoreState N).Inv :=
  { h with memory := Memory.write_wf c h.memory ha }

/-- Settles O51: power-on and program load end in `rst`; the other two moves write one field that the invariant
speaks of. -/
theorem hostMoveKeepsInv : Obligations.HostMoveKeepsInv := by
  rintro m ⟨N, s⟩ o ⟨hwidth, h⟩ hmove
  obtain ⟨t, rfl, hcases⟩ := hostMove_cases hmove
  refine ⟨hwidth, ?_⟩
  obtain ⟨planted, -, hp, rfl⟩ | ⟨words, -, hlen, -, rfl⟩ | ⟨st, -, hst, ⟨-, rfl⟩ | ⟨hs, rfl⟩⟩ |
    ⟨a, v, tick, -, ha, -, rfl⟩ := hcases
  · exact s.inv_poweredOn hp
  · exact CoreState.inv_resetProcessor h.memory (by simpa using hlen)
  · exact h
  · exact h.setStatus (h.lastError_eq_none hs) hst
  · exact h.writeCell ha _

end Sys2Proof.Machine
end

section
/-! SUPPORT. The zero flag of 41_alu R166: which instructions write it, which step keeps it, and that the effect of
every instruction but JZ is independent of it. -/

namespace Sys2Proof.Machine

variable {N : Nat}

/-! ### The writers -/

/-- An instruction other than SUB and CMP keeps Z. -/
theorem exec_z {i : Instr} {s t : CoreState N} (h : exec i ⟨N, s⟩ = .next ⟨N, t⟩) (hsub : ∀ d r, i ≠ .sub d r)
    (hreg : ∀ a r, i ≠ .cmpReg a r) (himm : ∀ a v, i ≠ .cmpImm a v) : t.z = s.z := by
  cases i with
  | sub d r => exact absurd rfl (hsub d r)
  | cmpReg a r => exact absurd rfl (hreg a r)
  | cmpImm a v => exact absurd rfl (himm a v)
  | load d r => cases h; exact loadFrom_z d _ s
  | storeReg r x => cases h; exact storeTo_z _ _ s
  | storeAbs r addr => cases h; exact storeTo_z _ _ s
  | _ => cases h; rfl

/-- A step whose next instruction is neither SUB nor CMP, or that has none, keeps Z. -/
theorem step_z {s t : CoreState N} (h : step ⟨N, s⟩ = .next ⟨N, t⟩) (hsub : ∀ d r, nextInstr s ≠ some (.sub d r))
    (hreg : ∀ a r, nextInstr s ≠ some (.cmpReg a r)) (himm : ∀ a v, nextInstr s ≠ some (.cmpImm a v)) :
    t.z = s.z := by
  obtain ⟨-, ho⟩ | ⟨-, -, ho⟩ | ⟨w, code, -, -, -, ho⟩ | ⟨w, i, hs, hf, hd, ho⟩ := step_cases h
  · cases ho; rfl
  · cases ho; rfl
  · cases ho; rfl
  · have hi : nextInstr s = some i := nextInstr_eq_some_iff.mpr ⟨hs, w, hf, hd⟩
    calc t.z = (s.countCycle.beginInstruction w).z :=
          exec_z ho.symm (fun d r e => hsub d r (e ▸ hi)) (fun a r e => hreg a r (e ▸ hi))
            fun a v e => himm a v (e ▸ hi)
      _ = s.z := rfl

/-! ### The reader -/

theorem loadFrom_setZ (d : Reg) (ea : Word N) (s : CoreState N) (b : Bool) :
    loadFrom d ea (s.setZ b) = (loadFrom d ea s).setZ b := by
  unfold loadFrom
  split <;> rfl

theorem storeTo_setZ (ea v : Word N) (s : CoreState N) (b : Bool) :
    storeTo ea v (s.setZ b) = (storeTo ea v s).setZ b := by
  unfold storeTo
  split <;> rfl

/-- Whatever Z was before it, an instruction other than JZ gives states that differ in Z alone: SUB and CMP write
the same Z in both, the others keep it in each. -/
theorem exec_setZ {i : Instr} {s t : CoreState N} (h : exec i ⟨N, s⟩ = .next ⟨N, t⟩) (hjz : ∀ x, i ≠ .jz x)
    (b : Bool) : ∃ z, exec i ⟨N, s.setZ b⟩ = .next ⟨N, t.setZ z⟩ := by
  cases i with
  | jz x => exact absurd rfl (hjz x)
  | sub d r => cases h; exact ⟨zeroFlag (s.readReg d - s.readReg r), rfl⟩
  | cmpReg a r => cases h; exact ⟨equalFlag (s.readReg a) (s.readReg r), rfl⟩
  | cmpImm a v => cases h; exact ⟨equalFlag (s.readReg a) (immediateOperand N v), rfl⟩
  | load d r =>
    cases h
    exact ⟨b, next_mk_inj.mpr (congrArg (·.advance s.nextPc) (loadFrom_setZ d _ s b))⟩
  | storeReg r x =>
    cases h
    exact ⟨b, next_mk_inj.mpr (congrArg (·.advance s.nextPc) (storeTo_setZ _ _ s b))⟩
  | storeAbs r addr =>
    cases h
    exact ⟨b, next_mk_inj.mpr (congrArg (·.advance s.nextPc) (storeTo_setZ _ _ s b))⟩
  | _ => cases h; exact ⟨b, rfl⟩

/-- JZ is the branch to its target if Z is set, and to the next index if not (42_branch R181). -/
theorem exec_jz_toNat (x : Word N) (s : CoreState N) :
    exec (.jz x.toNat) ⟨N, s⟩ = .next ⟨N, branchTo .jz (if s.z then x else s.nextPc) s⟩ := by
  simp [exec, execJz]

/-- A running branch goes where it says, unchecked (42_branch R180, R181). -/
theorem branchTo_pc {s : CoreState N} (h : s.status = .running) (op : OpCode) (npc : Word N) :
    (branchTo op npc s).pc = npc :=
  if_pos h

/-- Settles O17: SUB and CMP write Z, the other instructions and the other cases of a step keep it, and of the
instructions only JZ reads it. -/
theorem zeroFlagWritersAndReader : Obligations.ZeroFlagWritersAndReader := by
  refine ⟨fun N d r s => ⟨_, rfl, subtractFrom_z d _ s⟩, fun N a r s => ⟨_, rfl, compareWith_z a _ s⟩,
    fun N a v s => ⟨_, exec_cmpImm_toNat a v s, compareWith_z a v s⟩, fun N s hsub hreg himm => ?_,
    fun N i s b hjz => ?_, fun N x s hs => ⟨_, exec_jz_toNat x s, branchTo_pc hs _ _⟩, fun N s => rfl⟩
  · obtain ⟨t, ht⟩ := step_completes s
    exact ⟨t, ht, step_z ht hsub hreg himm⟩
  · obtain ⟨t, ht⟩ := exec_completes i s
    obtain ⟨z, hz⟩ := exec_setZ ht hjz b
    exact ⟨t, z, ht, hz⟩

end Sys2Proof.Machine
end

section
/-! SUPPORT. JMP and JZ (42_branch R180 to R182): where they go, their TRACE, and their frame. -/

namespace Sys2Proof.Machine

variable {N : Nat}

/-- JMP is the branch to its target (42_branch R180). -/
theorem exec_jmp_toNat (x : Word N) (s : CoreState N) :
    exec (.jmp x.toNat) ⟨N, s⟩ = .next ⟨N, branchTo .jmp x s⟩ := by
  simp [exec, execJmp]

/-- A branch puts at most one event on the trace port, the TRACE of its opcode (40_cycle R128, R129). -/
theorem branchTo_log_cases (op : OpCode) (npc : Word N) (s : CoreState N) :
    (branchTo op npc s).log = s.log ∨ ∃ a b c, (branchTo op npc s).log = s.log ++ [⟨.trace, op.number, a, b, c⟩] :=
  log_append_optTrace_cases s.log op.number s.draws

/-- Settles O18: JMP is a branch, which writes `pc` and the log alone. -/
theorem jmpResult : Obligations.JmpResult := by
  intro N x s h
  have hexec := exec_jmp_toNat x s
  exact ⟨_, hexec, branchTo_pc h .jmp x, rfl, h, branchTo_log_cases .jmp x s, fun _ => rfl,
    exec_sameControl hexec, sameMemory_of_mem_eq rfl⟩

/-- Settles O19: JZ is a branch whichever way it goes; Z chooses only the index that it writes to `pc`. -/
theorem jzResult : Obligations.JzResult := by
  intro N x s h
  have hexec := exec_jz_toNat x s
  have hpc := branchTo_pc h .jz (if s.z then x else s.nextPc)
  have htaken : s.z = true → (if s.z then x else s.nextPc) = x := fun hz => if_pos hz
  have hnotTaken : s.z = false → (if s.z then x else s.nextPc) = s.pc + 1 :=
    fun hz => if_neg (Bool.eq_false_iff.mp hz)
  exact ⟨_, hexec, fun hz => hpc.trans (htaken hz), fun hz => hpc.trans (hnotTaken hz), rfl, h,
    branchTo_log_cases .jz _ s, fun _ => rfl, exec_sameControl hexec, sameMemory_of_mem_eq rfl⟩

end Sys2Proof.Machine
end

section
/-! SUPPORT. LOAD and STORE at an address in range (43_memory_ops R190, R191): the cell that they access, the register
of LOAD, their TRACE, and their frame. -/

namespace Sys2Proof.Machine

variable {N : Nat}

/-! ### The accessed cell -/

/-- A data memory that is that of one write holds what was written there. -/
theorem read_of_mem_eq_write {s t : CoreState N} {a : Nat} {c : Cell N} (h : t.mem = s.mem.write a c) :
    t.mem.read a = c := by
  rw [h, Memory.read_write_same]

/-- A data memory that is that of one write reads as before at every other index. -/
theorem sameMemoryBut_of_mem_eq_write {s t : CoreState N} {a : Nat} {c : Cell N} (h : t.mem = s.mem.write a c) :
    SameMemoryBut a s t := by
  intro b hb
  rw [h, Memory.read_write_other s.mem hb]

/-! ### The effects in range -/

section accessInRange
variable {ea : Word N} (hin : inRange ea = true)
include hin

theorem loadFrom_mem_of_inRange (d : Reg) (s : CoreState N) :
    (loadFrom d ea s).mem = s.mem.write ea.toNat ⟨(s.mem.read ea.toNat).value, s.now⟩ := by
  rw [loadFrom_mem, if_pos hin]

theorem storeTo_mem_of_inRange (v : Word N) (s : CoreState N) :
    (storeTo ea v s).mem = s.mem.write ea.toNat ⟨v, s.now⟩ := by
  rw [storeTo_mem, if_pos hin]

theorem loadFrom_sameRegsBut (d : Reg) (s : CoreState N) : SameRegsBut d s (loadFrom d ea s) :=
  sameRegsBut_of_regs_eq ((loadFrom_regs d ea s).trans (if_pos hin))

/-- In range LOAD puts at most one event on the trace port, a TRACE of op 6 (40_cycle R128, R129). -/
theorem loadFrom_log_cases (d : Reg) (s : CoreState N) :
    (loadFrom d ea s).log = s.log ∨ ∃ a b c, (loadFrom d ea s).log = s.log ++ [⟨.trace, 6, a, b, c⟩] := by
  rw [loadFrom_log, if_pos hin]
  exact log_append_optTrace_cases s.log 6 s.draws

/-- In range STORE puts at most one event on the trace port, a TRACE of op 7 (40_cycle R128, R129). -/
theorem storeTo_log_cases (v : Word N) (s : CoreState N) :
    (storeTo ea v s).log = s.log ∨ ∃ a b c, (storeTo ea v s).log = s.log ++ [⟨.trace, 7, a, b, c⟩] := by
  rw [storeTo_log, if_pos hin]
  exact log_append_optTrace_cases s.log 7 s.draws

end accessInRange

/-- The advance of a running core writes the given index (40_cycle R136). -/
theorem CoreState.advance_pc_of_running {s : CoreState N} (h : s.status = .running) (npc : Word N) :
    (s.advance npc).pc = npc :=
  if_pos h

/-! ### The statements -/

/-- Settles O20: LOAD writes one register, the tick of the cell at the address read before that write, `pc` and the
log. -/
theorem loadInRange : Obligations.LoadInRange := by
  intro N d r s hs hlt
  have hin : inRange (s.readReg r) = true := (inRange_iff _).mpr hlt
  have hexec := exec_load d r s
  have hmem := loadFrom_mem_of_inRange hin d s
  have hstatus := (loadFrom_status d (s.readReg r) s).trans hs
  exact ⟨_, hexec, loadFrom_readReg d s hin, loadFrom_sameRegsBut hin d s, read_of_mem_eq_write hmem,
    sameMemoryBut_of_mem_eq_write hmem, CoreState.advance_pc_of_running hstatus _, loadFrom_z d _ s, hstatus,
    loadFrom_log_cases hin d s, exec_sameControl hexec⟩

/-- An instruction whose meaning is STORE's effect at an address in range writes that cell, `pc` and the log
(43_memory_ops R191), whatever the form of its address. -/
theorem exec_storeTo_inRange {i : Instr} {s : CoreState N} {ea v : Word N}
    (hexec : exec i ⟨N, s⟩ = .next ⟨N, (storeTo ea v s).advance s.nextPc⟩) (hs : s.status = .running)
    (hlt : ea.toNat < 1024) :
    ∃ t : CoreState N, exec i ⟨N, s⟩ = .next ⟨N, t⟩ ∧
      t.mem.read ea.toNat = ⟨v, s.now⟩ ∧ SameMemoryBut ea.toNat s t ∧ SameRegs s t ∧
      t.pc = s.pc + 1 ∧ t.z = s.z ∧ t.status = .running ∧
      (t.log = s.log ∨ ∃ a b c, t.log = s.log ++ [⟨.trace, 7, a, b, c⟩]) ∧ SameControl s t := by
  have hin : inRange ea = true := (inRange_iff ea).mpr hlt
  have hmem := storeTo_mem_of_inRange hin v s
  have hstatus := (storeTo_status ea v s).trans hs
  exact ⟨_, hexec, read_of_mem_eq_write hmem, sameMemoryBut_of_mem_eq_write hmem, storeTo_readReg ea v s,
    CoreState.advance_pc_of_running hstatus _, storeTo_z ea v s, hstatus, storeTo_log_cases hin v s,
    exec_sameControl hexec⟩

/-- Settles O21: both forms have the one effect `storeTo`, at the address in the register or in the word. -/
theorem storeInRange : Obligations.StoreInRange :=
  ⟨fun _ r x s hs hlt => exec_storeTo_inRange (exec_storeReg r x s) hs hlt,
    fun _ r x s hs hlt => exec_storeTo_inRange (exec_storeAbs_toNat r x s) hs hlt⟩

end Sys2Proof.Machine
end

section
/-! SUPPORT. PRINT and HALT (44_system R200 to R202): their one event, their frame, and the text of an OUTPUT line. -/

namespace Sys2Proof.Machine

variable {N : Nat}

/-! ### The signed reading as text -/

/-- A negative reading is 2^N below the unsigned one (00_scope R10). -/
theorem toNat_neg_toInt_of_neg {v : Word N} (h : v.toInt < 0) : (-v.toInt).toNat = 2 ^ N - v.toNat := by
  rw [BitVec.toInt_eq_toNat_cond] at h ⊢
  split at h <;> omega

theorem outputLine_of_nonneg {v : Word N} (h : 0 ≤ v.toInt) : outputLine v = ">> OUTPUT: " ++ Nat.repr v.toNat := by
  have hmsb : v.msb = false := by simpa [BitVec.msb_eq_toInt] using h
  rw [outputLine, Int.toString_eq_repr, Int.repr_eq_if, if_pos h, BitVec.toNat_toInt_of_msb v hmsb]

theorem outputLine_of_neg {v : Word N} (h : v.toInt < 0) :
    outputLine v = ">> OUTPUT: " ++ "-" ++ Nat.repr (2 ^ N - v.toNat) := by
  rw [outputLine, Int.toString_eq_repr, Int.repr_eq_if, if_neg (Int.not_le.mpr h), toNat_neg_toInt_of_neg h,
    String.append_assoc]

theorem Event.line_of_output {e : Event N} (h : e.kind = .output) : e.line = outputLine e.a := by
  rw [Event.line, h]

/-! ### The meanings of PRINT and HALT -/

/-- PRINT emits its register and advances (44_system R200). -/
theorem exec_print (r : Reg) (s : CoreState N) :
    exec (.print r) ⟨N, s⟩ = .next ⟨N, (s.emit (outputEvent (s.readReg r))).advance s.nextPc⟩ :=
  rfl

/-- HALT halts and emits, before the advance (44_system R202). -/
theorem exec_halt (s : CoreState N) :
    exec .halt ⟨N, s⟩ = .next ⟨N, (s.setHalted.emit (haltEvent N)).advance s.nextPc⟩ :=
  rfl

/-- The advance of a core that is not running keeps `pc` (40_cycle R136). -/
theorem CoreState.advance_pc_of_not_running {s : CoreState N} (h : s.status ≠ .running) (npc : Word N) :
    (s.advance npc).pc = s.pc :=
  if_neg h

/-! ### The statements -/

/-- Settles O29: the sign of the signed reading chooses the digits, those of the word or of 2^N minus it. -/
theorem outputLineSignedDecimal : Obligations.OutputLineSignedDecimal := by
  intro N e he
  rw [Event.line_of_output he]
  exact ⟨outputLine_of_nonneg, outputLine_of_neg⟩

/-- Settles O27: PRINT writes the log and, since the core runs, `pc`. -/
theorem printResult : Obligations.PrintResult := by
  intro N r s h
  have hexec := exec_print r s
  exact ⟨_, hexec, rfl, CoreState.advance_pc_of_running h _, rfl, h, fun _ => rfl, exec_sameControl hexec,
    sameMemory_of_mem_eq rfl⟩

/-- Settles O28: HALT writes the log and `status`, after which the advance keeps `pc`. -/
theorem haltResult : Obligations.HaltResult := by
  intro N s
  have hexec := exec_halt s
  have hnotRunning : (s.setHalted.emit (haltEvent N)).status ≠ .running := by simp
  exact ⟨_, hexec, rfl, CoreState.advance_pc_of_not_running hnotRunning _, rfl, rfl, fun _ => rfl,
    exec_sameControl hexec, sameMemory_of_mem_eq rfl⟩

end Sys2Proof.Machine
end

section
/-! SUPPORT. The fatal path of 60_exceptions: what it does (R212), the programs on which it is never taken (R211), and
that nothing but a reset leaves a terminal status (R215, R223). -/

namespace Sys2Proof.Machine

variable {N : Nat}

/-- The induction over a sequence of transitions, for what is said of cores of one width. -/
theorem runMoves_keeps_core {P : CoreState N → Prop} {moves : List Move}
    (keeps : ∀ m ∈ moves, ∀ s t, P s → move m ⟨N, s⟩ = some ⟨N, t⟩ → P t) {s t : CoreState N} (hs : P s)
    (h : runMoves moves ⟨N, s⟩ = some ⟨N, t⟩) : P t := by
  have keepsState : ∀ m ∈ moves, ∀ u v : State, (∃ c, u = ⟨N, c⟩ ∧ P c) → move m u = some v →
      ∃ c, v = ⟨N, c⟩ ∧ P c := by
    rintro m hm _ v ⟨c, rfl, hc⟩ hmove
    obtain ⟨d, rfl⟩ := move_eq_mk hmove
    exact ⟨d, rfl, keeps m hm c d hc hmove⟩
  obtain ⟨c, hc, hP⟩ := runMoves_keeps keepsState ⟨s, rfl, hs⟩ h
  cases hc
  exact hP

/-! ### Programs that never fault (60_exceptions R211) -/

/-- A core that has not faulted and whose program holds only well-formed words. -/
structure CoreState.Safe (s : CoreState N) : Prop where
  program : ∀ w ∈ s.program, wellFormedWord w = true
  notFaulted : ¬ s.faulted

/-- A safe core fetches only words that decode (30_encoding R88). -/
theorem CoreState.Safe.decode_ne_error {s : CoreState N} (h : s.Safe) {w : InstrWord N} (hf : s.fetch = some w)
    (code : Malformed) : decode w ≠ .error code := by
  obtain ⟨i, hi⟩ := (wellFormedWordDecodes N w).mp (h.program w (List.mem_of_getElem? hf))
  simp [hi]

/-- A step keeps a core safe: it enters ERROR only on a malformed word, and writes no program. -/
theorem CoreState.Safe.step {s t : CoreState N} (h : s.Safe) (hstep : Machine.step ⟨N, s⟩ = .next ⟨N, t⟩) :
    t.Safe := by
  cases hs : s.status.terminal with
  | true =>
    cases (step_of_terminal hs).symm.trans hstep
    exact h
  | false =>
    obtain ⟨_, ht, -, -, herror⟩ := statusAfterStep N s ((not_terminal_iff _).mp hs)
    cases ht.symm.trans hstep
    obtain ⟨_, ht, hprogram⟩ := programNeverWritten N s
    cases ht.symm.trans hstep
    refine ⟨hprogram ▸ h.program, fun hfault => ?_⟩
    obtain ⟨w, code, hf, hd⟩ := herror.mp hfault
    exact h.decode_ne_error hf code hd

/-- A host move keeps a core safe when the program that it loads, if any, holds only well-formed words: power-on and
program load end in IDLE, and the host never writes ERROR (10_state R33). -/
theorem CoreState.Safe.hostMove {m : HostMove} {s t : CoreState N} (h : s.Safe)
    (hload : ∀ words, m = .loadProgram words → ∀ w ∈ words, wellFormedWord (BitVec.ofNat (N + 16) w) = true)
    (hmove : Machine.hostMove m ⟨N, s⟩ = some ⟨N, t⟩) : t.Safe := by
  obtain ⟨u, hu, hcases⟩ := hostMove_cases hmove
  cases hu
  obtain ⟨planted, -, -, rfl⟩ | ⟨words, hm, -, -, rfl⟩ | ⟨st, -, hst, ⟨-, rfl⟩ | ⟨-, rfl⟩⟩ |
    ⟨a, v, tick, -, -, -, rfl⟩ := hcases
  · exact ⟨List.forall_mem_nil _, nofun⟩
  · exact ⟨List.forall_mem_map.mpr (hload words hm), nofun⟩
  · exact h
  · refine ⟨h.program, ?_⟩
    rintro rfl
    cases hst
  · exact ⟨h.program, h.notFaulted⟩

/-- Settles O34: every transition of the sequence keeps the core safe. -/
theorem wellFormedProgramNeverFaults : Obligations.WellFormedProgramNeverFaults := by
  intro N moves s t hprogram hs hload h
  have keeps : ∀ m ∈ moves, ∀ u v : CoreState N, u.Safe → move m ⟨N, u⟩ = some ⟨N, v⟩ → v.Safe := by
    intro m hm u v hu hmove
    obtain ⟨-, hstep⟩ | ⟨x, rfl, hhost⟩ := move_cases hmove
    · exact hu.step hstep
    · exact hu.hostMove (fun words hx => hload words (hx ▸ hm)) hhost
  have ht : t.Safe := runMoves_keeps_core keeps ⟨hprogram, hs⟩ h
  exact ht.notFaulted

/-! ### A terminal status (60_exceptions R215, R223) -/

/-- On a terminal status only a host write of a cell, a program load or a power-on does anything. -/
theorem move_of_terminal {m : Move} {s t : CoreState N} (hs : s.status.terminal = true)
    (hpower : ∀ planted, m ≠ .host (.powerOn planted)) (hload : ∀ words, m ≠ .host (.loadProgram words))
    (h : move m ⟨N, s⟩ = some ⟨N, t⟩) : t = { s with mem := t.mem } ∧ (m = .step → t = s) := by
  obtain ⟨rfl, hstep⟩ | ⟨x, rfl, hhost⟩ := move_cases h
  · cases (step_of_terminal hs).symm.trans hstep
    exact ⟨rfl, fun _ => rfl⟩
  · obtain ⟨u, hu, hcases⟩ := hostMove_cases hhost
    cases hu
    refine ⟨?_, nofun⟩
    obtain ⟨planted, rfl, -⟩ | ⟨words, rfl, -⟩ | ⟨st, -, -, ⟨-, rfl⟩ | ⟨hs', -⟩⟩ |
      ⟨a, v, tick, -, -, -, rfl⟩ := hcases
    · exact absurd rfl (hpower planted)
    · exact absurd rfl (hload words)
    · rfl
    · simp [hs] at hs'
    · rfl

/-- Settles O33: without a reset every transition leaves all but data memory as it was, so the status is still
terminal at the next. -/
theorem onlyResetLeavesTerminal : Obligations.OnlyResetLeavesTerminal := by
  intro N moves s t hended hpower hload h
  have hs : s.status.terminal = true := (terminal_iff _).mpr hended
  have hmove : ∀ m ∈ moves, ∀ u v : CoreState N, u.status.terminal = true → move m ⟨N, u⟩ = some ⟨N, v⟩ →
      v = { u with mem := v.mem } ∧ (m = .step → v = u) :=
    fun m hm u v hu => move_of_terminal hu (fun p e => hpower p (e ▸ hm)) (fun w e => hload w (e ▸ hm))
  refine ⟨?_, fun hsteps => ?_⟩
  · have keeps : ∀ m ∈ moves, ∀ u v : CoreState N, { u with mem := s.mem } = s → move m ⟨N, u⟩ = some ⟨N, v⟩ →
        { v with mem := s.mem } = s := by
      intro m hm u v hu huv
      have hstatus : u.status = s.status := by rw [← hu]
      obtain ⟨hv, -⟩ := hmove m hm u v (hstatus ▸ hs) huv
      rw [hv]
      exact hu
    exact runMoves_keeps_core keeps rfl h
  · have keeps : ∀ m ∈ moves, ∀ u v : CoreState N, u = s → move m ⟨N, u⟩ = some ⟨N, v⟩ → v = s := by
      rintro m hm u v rfl huv
      exact (hmove m hm u v hs huv).2 (hsteps m hm)
    exact runMoves_keeps_core keeps rfl h

/-! ### What the fatal path does (60_exceptions R212) -/

/-- Settles O39: the fatal path writes `status`, `lastError` and the log, after the phases that count the cycle, set
IR and raise the temperature. -/
theorem fatalPath : Obligations.FatalPath := by
  intro N s w code hs hf hd
  exact ⟨_, step_of_malformed ((not_terminal_iff _).mpr hs) hf hd, rfl, rfl, rfl, fun _ => rfl, rfl, rfl, rfl, rfl, rfl,
    rfl, rfl, log_append_optTrace_cases s.log (opField w) (s.draws + 1)⟩

end Sys2Proof.Machine
end

section
/-! SUPPORT. Reset (70_reset_and_hazards R240): the states that are at the values of `rst`, the words of a program load, and
the invariant of the reset state. -/

namespace Sys2Proof.Machine

variable {N : Nat}

/-! ### States that `rst` leaves alone -/

@[simp] theorem CoreState.resetProcessor_resetProcessor (s : CoreState N) :
    s.resetProcessor.resetProcessor = s.resetProcessor := rfl

@[simp] theorem CoreState.reset_resetProcessor (N : Nat) : (CoreState.reset N).resetProcessor = CoreState.reset N := rfl

theorem CoreState.poweredOn_resetProcessor (s : CoreState N) (planted : List (Nat × Nat × Tick)) :
    (s.poweredOn planted).resetProcessor = s.poweredOn planted := rfl

/-! ### The program load (40_cycle R141) -/

/-- The core right after a load of the given words. -/
def CoreState.loaded (s : CoreState N) (words : List Nat) : CoreState N :=
  ({ s with program := words.map (BitVec.ofNat (N + 16)) } : CoreState N).resetProcessor

theorem hostMove_loadProgram (s : CoreState N) {words : List Nat} (hlen : words.length ≤ 2 ^ N - 1)
    (hwords : ∀ w ∈ words, w < 2 ^ (N + 16)) :
    hostMove (.loadProgram words) ⟨N, s⟩ = some ⟨N, s.loaded words⟩ :=
  if_pos ⟨hlen, by simpa using hwords⟩

/-- The loaded words are the numbers that the host gave: each is a word, so none is truncated. -/
theorem CoreState.loaded_program_toNat (s : CoreState N) {words : List Nat} (hwords : ∀ w ∈ words, w < 2 ^ (N + 16)) :
    (s.loaded words).program.map BitVec.toNat = words := by
  have hword : ∀ w ∈ words, (BitVec.ofNat (N + 16) w).toNat = w := fun w hw => toNat_ofNat_of_lt (hwords w hw)
  calc (s.loaded words).program.map BitVec.toNat
      = words.map fun w => (BitVec.ofNat (N + 16) w).toNat := List.map_map
    _ = words.map id := List.map_congr_left hword
    _ = words := List.map_id words

/-! ### The statements -/

/-- Settles O47: power-on and program load both answer a core that is its own `rst`. -/
theorem resetValues : Obligations.ResetValues := by
  refine ⟨fun N s => ?_, ?_, fun N s planted hplanted => ?_, fun N s words hlen hwords => ?_⟩
  · exact ⟨s.resetProcessor_readReg, rfl, rfl, rfl, rfl, rfl, rfl, rfl, rfl, rfl, rfl⟩
  · exact ⟨rfl, CoreState.reset_resetProcessor _, rfl⟩
  · exact ⟨_, hostMove_powerOn s hplanted, s.poweredOn_resetProcessor planted, rfl⟩
  · exact ⟨_, hostMove_loadProgram s hlen hwords, CoreState.resetProcessor_resetProcessor _,
      s.loaded_program_toNat hwords, rfl⟩

/-- The reset state is one after `rst`, with an empty memory list and no program. -/
theorem CoreState.inv_reset (N : Nat) : (CoreState.reset N).Inv :=
  inv_resetProcessor (s := CoreState.reset N) (Memory.reset_wf N) (Nat.zero_le _)

/-- Settles O49: the default width is one that the spec allows, and the core's invariant holds at every width. -/
theorem resetInv : Obligations.ResetInv :=
  ⟨⟨by decide, CoreState.inv_reset _⟩, fun N hN => ⟨hN, CoreState.inv_reset N⟩⟩

end Sys2Proof.Machine
end

section
/-! SUPPORT. The opcode table of 30_encoding R103 against the decoder: its rows are those of the opcodes and modes that
R87 allows, and a word is of such a row when OP and M are the row's and the fields that must be 0 are. -/

namespace Sys2Proof

variable {N : Nat}

/-! ### The rows -/

/-- The opcode and the mode of each row, in the order of the table. -/
def allowedModes : List (OpCode × Bool) :=
  [(.mov, true), (.add, false), (.add, true), (.sub, false), (.cmp, false), (.cmp, true), (.jmp, true), (.jz, true),
    (.load, false), (.store, false), (.store, true), (.halt, false), (.print, false)]

theorem mem_allowedModes_iff (op : OpCode) (m : Bool) : (op, m) ∈ allowedModes ↔ allowedM op m = true := by
  revert m
  cases op <;> decide

theorem opcodeTable_eq_map (N : Nat) : opcodeTable N = allowedModes.map fun p => rowOf N p.1 p.2 := rfl

/-- The rows are those of the allowed modes (30_encoding R87). -/
theorem mem_opcodeTable_iff (r : TableRow N) :
    r ∈ opcodeTable N ↔ ∃ op m, allowedM op m = true ∧ rowOf N op m = r := by
  simp only [opcodeTable_eq_map, List.mem_map, Prod.exists, mem_allowedModes_iff]

/-- The mode of an instruction's word is one that its opcode allows (30_encoding R87). -/
theorem allowedM_of_instr (i : Instr) : allowedM (opCodeOfInstr i) (modeOfInstr i) = true := by
  cases i <;> rfl

theorem opCodeOfInstr_instrOfFields (op : OpCode) (m : Bool) (a : Reg) (b : Word N) :
    opCodeOfInstr (instrOfFields op m a b) = op := by
  cases op <;> cases m <;> rfl

theorem modeOfInstr_instrOfFields {op : OpCode} {m : Bool} (hm : allowedM op m = true) (a : Reg) (b : Word N) :
    modeOfInstr (instrOfFields op m a b) = m := by
  cases m with
  | false =>
    cases op with
    | mov | jmp | jz => cases hm
    | add | sub | cmp | load | store | halt | print => rfl
  | true =>
    cases op with
    | sub | load | halt | print => cases hm
    | mov | add | cmp | jmp | jz | store => rfl

/-- The row of the instruction of legal fields is the row of its opcode and mode. -/
theorem tableRow_instrOfFields {op : OpCode} {m : Bool} (hm : allowedM op m = true) (a : Reg) (b : Word N) :
    tableRow N (instrOfFields op m a b) = rowOf N op m := by
  rw [tableRow, opCodeOfInstr_instrOfFields, modeOfInstr_instrOfFields hm]

/-! ### The words of a row -/

/-- The mask of A picks an unused A alone (30_encoding R92). -/
theorem and_aMask_eq_zero_iff (a : BitVec 3) (u : FieldUse) : a &&& aMask u = 0 ↔ (u = .unused → a = 0) := by
  revert a
  cases u <;> decide

/-- The mask of B picks `B[N-1:3]` of a register and the whole of an unused B (30_encoding R92). -/
theorem and_bMask_eq_zero_iff (b : Word N) (u : FieldUse) :
    b &&& bMask N u = 0 ↔ (u = .register → bHigh b = 0) ∧ (u = .unused → b = 0) := by
  cases u with
  | register => exact (and_bHigh_mask b).trans (by simp)
  | unused | immediate | target | address => simp [bMask]

theorem covers_rowOf_iff (op : OpCode) (m : Bool) (w : InstrWord N) : (rowOf N op m).covers w = true ↔
    opField w = op.number ∧ mField w = m ∧ MustBeZero op w := by
  have hop : opField w &&& 15 = opField w := BitVec.and_allOnes
  have hrsv : rsvField w &&& 255 = rsvField w := BitVec.and_allOnes
  simp only [TableRow.covers_iff, rowOf, opField_wordOfParts, mField_wordOfParts, aField_wordOfParts,
    rsvField_wordOfParts, bField_wordOfParts, opField_wordOfFields, mField_wordOfFields, aField_wordOfFields,
    rsvField_wordOfFields, bField_wordOfFields, hop, hrsv, Bool.and_true, and_aMask_eq_zero_iff,
    and_bMask_eq_zero_iff, MustBeZero]
  refine and_congr_right fun _ => and_congr_right fun hm => ?_
  rw [hm, and_left_comm]

/-- A word is of an allowed row exactly when it decodes to an instruction of that row (30_encoding R103). -/
theorem covers_rowOf_iff_decode {op : OpCode} {m : Bool} (hm : allowedM op m = true) (w : InstrWord N) :
    (rowOf N op m).covers w = true ↔ ∃ i, decode w = .ok i ∧ tableRow N i = rowOf N op m := by
  constructor
  · intro h
    obtain ⟨hop, rfl, hz⟩ := (covers_rowOf_iff op m w).mp h
    exact ⟨_, decode_of_mustBeZero (by rw [hop, opCodeOf_number]) hm hz, tableRow_instrOfFields hm _ _⟩
  · rintro ⟨i, hi, hrow⟩
    obtain ⟨op', ho, hm', hz, rfl⟩ := (decode_eq_ok_iff w i).mp hi
    rw [← hrow, tableRow_instrOfFields hm', covers_rowOf_iff]
    exact ⟨(number_of_opCodeOf ho).symm, rfl, hz⟩

/-- OP and M of a word fix the row that it is of (30_encoding R103). -/
theorem rowOf_eq_of_covers {op op' : OpCode} {m m' : Bool} {w : InstrWord N}
    (h : (rowOf N op m).covers w = true) (h' : (rowOf N op' m').covers w = true) : rowOf N op m = rowOf N op' m' := by
  obtain ⟨hop, rfl, -⟩ := (covers_rowOf_iff op m w).mp h
  obtain ⟨hop', rfl, -⟩ := (covers_rowOf_iff op' m' w).mp h'
  have hsome : some op = some op' := by rw [← opCodeOf_number op, ← hop, hop', opCodeOf_number]
  rw [Option.some.inj hsome]

/-! ### The statements -/

/-- Settles O9: every row is that of an allowed opcode and mode, which are OP and M of the words of the row. -/
theorem tableRowsMatchDecoder : Obligations.TableRowsMatchDecoder := by
  refine fun N _ => ⟨fun w r hr => ?_, fun i => ?_, fun w r hr r' hr' h h' => ?_⟩
  · obtain ⟨op, m, hm, rfl⟩ := (mem_opcodeTable_iff r).mp hr
    exact covers_rowOf_iff_decode hm w
  · exact (mem_opcodeTable_iff _).mpr ⟨_, _, allowedM_of_instr i, rfl⟩
  · obtain ⟨op, m, -, rfl⟩ := (mem_opcodeTable_iff r).mp hr
    obtain ⟨op', m', -, rfl⟩ := (mem_opcodeTable_iff r').mp hr'
    exact rowOf_eq_of_covers h h'

/-- Settles O10: the table of the default width, evaluated. -/
theorem tableAtSixteen : Obligations.TableAtSixteen := by
  unfold Obligations.TableAtSixteen
  decide

end Sys2Proof
end
